-- ==== Sys2Proof/Word.lean ====
section
/-!
DEFINITION. The values that cross the block's channels: bytes, parities, command words, entropy answers, status codes,
responses (00_scope R8 to R11, 20_memory R55, 30_encoding R70, R71, R80, R81, R83). A pattern is a natural number whose bit `i`
has weight `2^i` (00_scope R8); it does not carry its width (R10).
What is computed from them stands in Decode.lean and under Machine/.
-/

namespace Sys2Proof

/-- One byte of the entropy stream (20_memory R55). -/
abbrev Byte := BitVec 8

/-- A parity (00_scope R9). -/
inductive Parity where
  /-- `EVEN = 0`. -/
  | even
  /-- `ODD = 1`. -/
  | odd
deriving DecidableEq, Repr

/-- The number of a parity: `EVEN = 0`, `ODD = 1` (00_scope R9). -/
def Parity.toNat : Parity → Nat
  | .even => 0
  | .odd => 1

/-- The complement of a parity, `p xor 1` (00_scope R9). -/
def Parity.flip : Parity → Parity
  | .even => .odd
  | .odd => .even

/-- What the host presents to the block: a command word on the command channel (30_encoding R70), or the reset input `rst`
(70_reset R190). A command word `CW` (R71) is held as an integer: `CW[7:0]` is its remainder by 256 and the argument field
stands above. An instance with finite `W_MAX` has words of `8 + ARGW` bits and sees only those bits; when `W_MAX` is unbounded
the argument is an unbounded integer and so is the word (00_scope R6; assumption log 2). -/
inductive HostInput where
  | command (cw : Int)
  | reset
deriving DecidableEq, Repr

/-- One answer on the entropy channel (30_encoding R83): `ok = 1` with a data field whose bits `8k+7 : 8k` are byte `b[k]`,
or `ok = 0` with a failure code. `bytes` is `Bytes(b)` and `fail` is `Fail(e)` of 20_memory R55. -/
inductive EntropyAnswer where
  | bytes (data : Nat)
  | fail (code : Nat)
deriving DecidableEq, Repr

/-- The status of a response (30_encoding R81). -/
inductive Status where
  /-- 0 `OK`: accepted; no pattern returned. -/
  | ok
  /-- 1 `DATA`: `pat` holds a pattern. -/
  | data
  /-- 2 `END`: the open sequence is exhausted. -/
  | endOfSequence
  /-- 3 `ERR_INVALID_ARGUMENT`. -/
  | errInvalidArgument
  /-- 4 `ERR_ENTROPY`. -/
  | errEntropy
  /-- 5 `ERR_RANGE`. -/
  | errRange
  /-- 6 `ERR_ILLEGAL`. -/
  | errIllegal
  /-- 7 `ERR_NOSEQ`. -/
  | errNoSeq
deriving DecidableEq, Repr

/-- The three fields of a response word `RW` (30_encoding R80); Machine/Channels.lean packs them. -/
structure Response where
  /-- `status`. -/
  status : Status
  /-- `pat`: the pattern when `status = DATA`, else 0. -/
  pat : Nat
  /-- `ecode`: the entropy source's failure code when `status = ERR_ENTROPY`, else 0. -/
  ecode : Nat
deriving DecidableEq, Repr

end Sys2Proof
end

