-- ==== Sys2Proof/Config.lean ====
section
/-!
DEFINITION. What an implementation of the block fixes: the parameters of 00_scope R6; and the one free value of the model.
-/

namespace Sys2Proof

/-- The parameters of one instance (00_scope R6), fixed at instantiation (10_state R27(d)). -/
structure Params where
  /-- `W_MAX`, the largest width and bit length accepted; `none` is the unbounded instance. -/
  wMax : Option Nat
  /-- `ARGW`, the width of the signed argument field; not used when `wMax = none`. -/
  argw : Nat
  /-- `ECW`, the width of the entropy failure code. -/
  ecw : Nat
  /-- `STEP4_AZ_NATURAL` (41_sampler R137): true, zero is disallowed in step 4 of `REV` when `az = 0`; false, when `az = 1`. -/
  step4AzNatural : Bool
deriving DecidableEq, Repr

/-- The constraints of 00_scope R6: `W_MAX >= 2` or unbounded, `2^(ARGW-1) - 1 >= W_MAX`, `ECW >= 1`. -/
def Params.wf (p : Params) : Bool :=
  (match p.wMax with
    | none => true
    | some m => decide (2 ≤ m) && decide (m ≤ 2 ^ (p.argw - 1) - 1)) && decide (1 ≤ p.ecw)

/-- The suggested defaults of 00_scope R6 (assumption log 1). -/
def Params.suggested : Params :=
  { wMax := some 64, argw := 32, ecw := 8, step4AzNatural := true }

/-- FREE VALUE (70_reset R190; 93 V9): the answers that stand next on the entropy channel after the `k`-th reset that
interrupted a draw, "after a reset the position of the entropy stream is unspecified". It has no body, so nothing can be
proved of it (assumption log 6). -/
opaque Config.streamAfterReset (k : Nat) : List EntropyAnswer

end Sys2Proof
end

