-- ==== Sys2Proof/Syntax.lean ====
section
/-!
DEFINITION. The six commands (30_encoding R76), one constructor for each row of spec/opcode_table.json.
-/

namespace Sys2Proof

/-- A command with its operands as 30_encoding R86 reads them: the argument is an integer, the flag a bit. -/
inductive Instr where
  /-- `AEV w`: start the even enumeration of width `w` (40_enumerator R105). -/
  | aev (w : Int)
  /-- `AOD w`: start the odd enumeration of width `w` (40_enumerator R107). -/
  | aod (w : Int)
  /-- `REV n, az`: random pattern of even parity, `az` the source's `allowZero` (41_sampler R138). -/
  | rev (n : Int) (az : Bool)
  /-- `ROD n`: random pattern of odd parity (41_sampler R139). -/
  | rod (n : Int)
  /-- `NXT`: pull one element (40_enumerator R108). -/
  | nxt
  /-- `STP`: stop pulling (40_enumerator R112). -/
  | stp
deriving DecidableEq, Repr

end Sys2Proof
end

