-- ==== Sys2Proof/WellFormed.lean ====
section
/-!
DEFINITION. Which commands an instance's command word can carry (30_encoding R73): the argument fits the signed field.
Whether an argument is accepted is not a matter of form: it belongs to the commands (30_encoding R86).
-/

namespace Sys2Proof

/-- `a` fits the argument field: `-2^(ARGW-1) <= a < 2^(ARGW-1)` (30_encoding R73); every integer when `W_MAX` is unbounded. -/
def Params.fitsArg (p : Params) (a : Int) : Bool :=
  match p.wMax with
  | none => true
  | some _ => decide (-(2 ^ (p.argw - 1) : Int) ≤ a) && decide (a < (2 ^ (p.argw - 1) : Int))

/-- The command has an encoding on the instance `p`. -/
def Instr.wellFormed (p : Params) : Instr → Bool
  | .aev w => p.fitsArg w
  | .aod w => p.fitsArg w
  | .rev n _ => p.fitsArg n
  | .rod n => p.fitsArg n
  | .nxt => true
  | .stp => true

end Sys2Proof
end

