-- ==== Sys2Proof/Decode.lean ====
section
/-!
DEFINITION. The decoder of 30_encoding R86, total on every command word and rejecting by name, and after it the encoder of
R71, R76 and R84, and the assembler's operand forms (R84, R85).
-/

namespace Sys2Proof

/-! ## The fields of a command word (30_encoding R71) -/

/-- `sext_bits(v)`: a field of `bits` bits read as a two's-complement integer (00_scope R11). -/
def signExtend (bits v : Nat) : Int :=
  if v < 2 ^ (bits - 1) then (v : Int) else (v : Int) - 2 ^ bits

/-- `CW[7:0]`, the control byte. -/
def controlByte (cw : Int) : Byte := BitVec.ofInt 8 cw

/-- `CW[2:0]`, the operation code. -/
def opField (cw : Int) : BitVec 3 := (controlByte cw).extractLsb' 0 3

/-- `CW[3]`, the `allowZero` flag (30_encoding R72). -/
def azField (cw : Int) : Bool := (controlByte cw).getLsbD 3

/-- `CW[7:4]`, reserved. -/
def rsvField (cw : Int) : BitVec 4 := (controlByte cw).extractLsb' 4 4

/-- The integer operand `a = sext_ARGW(CW[8+ARGW-1:8])` (30_encoding R73); when `W_MAX` is unbounded, all that stands above
the control byte (assumption log 2). -/
def argField (p : Params) (cw : Int) : Int :=
  match p.wMax with
  | none => cw / 256
  | some _ => signExtend p.argw (cw / 256 % 2 ^ p.argw).toNat

/-! ## The decoder -/

/-- Why a command word is illegal (30_encoding R77). -/
inductive DecodeError where
  /-- `rsv != 0`. -/
  | reservedBits
  /-- `op` is `0b110` or `0b111` (R78). -/
  | reservedOpcode
  /-- `az = 1` on a command other than `REV`. -/
  | strayAllowZero
  /-- `arg != 0` on `NXT` or `STP`. -/
  | strayArgument
deriving DecidableEq, Repr

/-- The decoding procedure of 30_encoding R86, steps (1) to (6) in order. -/
def decode (p : Params) (cw : Int) : Except DecodeError Instr :=
  if rsvField cw ≠ 0 then .error .reservedBits
  else if 6 ≤ (opField cw).toNat then .error .reservedOpcode
  else if azField cw = true ∧ opField cw ≠ 2 then .error .strayAllowZero
  else if (opField cw = 4 ∨ opField cw = 5) ∧ argField p cw ≠ 0 then .error .strayArgument
  else match (opField cw).toNat with
    | 0 => .ok (.aev (argField p cw))
    | 1 => .ok (.aod (argField p cw))
    | 2 => .ok (.rev (argField p cw) (azField cw))
    | 3 => .ok (.rod (argField p cw))
    | 4 => .ok .nxt
    | _ => .ok .stp

/-! ## The encoder -/

/-- `CW[7:0]` of a command (30_encoding R76). -/
def Instr.control : Instr → Byte
  | .aev _ => 0x00#8
  | .aod _ => 0x01#8
  | .rev _ az => if az then 0x0A#8 else 0x02#8
  | .rod _ => 0x03#8
  | .nxt => 0x04#8
  | .stp => 0x05#8

/-- The integer operand of a command; 0 where it has none (30_encoding R77: unused fields are zero). -/
def Instr.arg : Instr → Int
  | .aev w => w
  | .aod w => w
  | .rev n _ => n
  | .rod n => n
  | .nxt => 0
  | .stp => 0

/-- The content of the argument field: `a mod 2^ARGW` (30_encoding R84); `a` itself when `W_MAX` is unbounded. -/
def Params.argBits (p : Params) (a : Int) : Int :=
  match p.wMax with
  | none => a
  | some _ => a % 2 ^ p.argw

/-- The command word `{arg, control}` of a command (30_encoding R71, R84). -/
def encode (p : Params) (i : Instr) : Int :=
  p.argBits i.arg * 256 + (i.control.toNat : Int)

/-- The bits of a word that an instance sees: the low `8 + ARGW`; all of them when `W_MAX` is unbounded (30_encoding R71). -/
def Params.commandBits (p : Params) (cw : Int) : Int :=
  match p.wMax with
  | none => cw
  | some _ => cw % 2 ^ (8 + p.argw)

/-! ## The opcode table's words and the assembler -/

/-- The command the decoder reads from an opcode-table word: one word of `nbits` bits, at the table's `ARGW = 32`. -/
def decodeTableWord (nbits w : Nat) : Option Instr :=
  match decode Params.suggested (Int.ofNat (w % 2 ^ nbits)) with
  | .ok i => some i
  | .error _ => none

/-- One line of assembler, its mnemonic and its operands read as numbers (30_encoding R84); `REV n` is the
pseudo-instruction `REV n, 0` (R85). -/
def assembleLine (mnemonic : String) (operands : List Int) : Option Instr :=
  match mnemonic, operands with
  | "AEV", [w] => some (.aev w)
  | "AOD", [w] => some (.aod w)
  | "REV", [n] => some (.rev n false)
  | "REV", [n, z] => if z = 0 then some (.rev n false) else if z = 1 then some (.rev n true) else none
  | "ROD", [n] => some (.rod n)
  | "NXT", [] => some .nxt
  | "STP", [] => some .stp
  | _, _ => none

end Sys2Proof
end

