-- ==== Sys2Proof/Machine/Bits.lean ====
section
/-!
DEFINITION. The bit functions of 00_scope: `len`, `popcount`, `par`, `clb` (R8, R9, R13, R14), and the assembly of drawn
bytes (20_memory R57).
-/

namespace Sys2Proof.Machine

/-- `len(v)`, the significant bit length: 0 when `v = 0`, else one plus the position of the highest set bit (00_scope R8). -/
def len (v : Nat) : Nat :=
  if v = 0 then 0 else Nat.log2 v + 1

/-- The number of set bits among the positions below `k`. -/
def bitCount : Nat → Nat → Nat
  | 0, _ => 0
  | k + 1, v => bitCount k v + (v.testBit k).toNat

/-- `popcount(v)`, the number of set bits in `v` (00_scope R13); no bit is set at or above `len v`. -/
def popcount (v : Nat) : Nat := bitCount (len v) v

/-- `par(v) = popcount(v) mod 2` (00_scope R9): only the lowest bit of the popcount is used (41_sampler R135). -/
def par (v : Nat) : Parity :=
  if popcount v % 2 = 0 then .even else .odd

/-- `clb(v) = v & (v-1)`, the lowest set bit cleared; `clb(0) = 0` (00_scope R14). -/
def clb (v : Nat) : Nat := v &&& (v - 1)

/-- `ceil(log2(x))`, the number of bits that tell `x` values apart (10_state R23, 30_encoding R83). -/
def ceilLog2 (x : Nat) : Nat :=
  if x ≤ 1 then 0 else Nat.log2 (x - 1) + 1

/-- `raw = sum over k of b[k] * 2^(8k)`: the first byte drawn is least significant (20_memory R57). -/
def assembleRaw : List Byte → Nat
  | [] => 0
  | b :: bs => b.toNat + 256 * assembleRaw bs

/-- Byte `b[k]` of an answer's data field: its bits `8k+7 : 8k` (30_encoding R83). -/
def dataByte (data k : Nat) : Byte := BitVec.ofNat 8 (data >>> (8 * k))

/-- The `n` bytes `b[0] .. b[n-1]` of an answer's data field (20_memory R55, 30_encoding R83). -/
def dataBytes (n data : Nat) : List Byte := (List.range n).map (dataByte data)

end Sys2Proof.Machine
end

