-- ==== Sys2Proof/Machine/Flags.lean ====
section
/-!
DEFINITION. The block stores no flags (10_state R31). What stands here are the one-bit tests of the Sampler, which live
within one command: the parity test of step 3 and the zero test of step 4 (41_sampler R135 to R137).
-/

namespace Sys2Proof.Machine

/-- `mis`: the parity of the constructed value is not the one wanted (41_sampler R135). -/
def mismatch (want : Parity) (v0 : Nat) : Bool := decide (par v0 ≠ want)

/-- Whether step 4 of `REV` disallows zero: when `az = 0`, or with `STEP4_AZ_NATURAL` false when `az = 1`
(41_sampler R136, R137). -/
def revZeroDisallowed (p : Params) (az : Bool) : Bool :=
  if p.step4AzNatural then !az else az

/-- Step 4 of `ROD` always disallows zero (41_sampler R136). -/
def rodZeroDisallowed : Bool := true

/-- The fallback constant: `1` for odd, `3` for even (41_sampler R136, 00_scope R7(f)). -/
def fallback : Parity → Nat
  | .even => 3
  | .odd => 1

end Sys2Proof.Machine
end

