-- ==== Sys2Proof/Machine/Rom.lean ====
section
/-!
DEFINITION. The two base-case read-only memories (20_memory R51 to R53, R61): constants, read by `MemRead`.
-/

namespace Sys2Proof.Machine

/-- One entry of a ROM, `{valid, val[1:0]}` (20_memory R53). -/
structure RomEntry where
  valid : Bool
  val : BitVec 2
deriving DecidableEq, Repr

/-- What is stored where a row has no entry, and at the reserved addresses (20_memory R53, R61). -/
def RomEntry.absent : RomEntry := { valid := false, val := 0#2 }

/-- `EVEN_ROM`, addresses `0b000` to `0b111` (20_memory R53). -/
def evenRom : List RomEntry :=
  [ { valid := true, val := 0#2 }, RomEntry.absent,
    { valid := true, val := 0#2 }, RomEntry.absent,
    { valid := true, val := 0#2 }, { valid := true, val := 3#2 },
    RomEntry.absent, RomEntry.absent ]

/-- `ODD_ROM`, addresses `0b000` to `0b111` (20_memory R53). -/
def oddRom : List RomEntry :=
  [ RomEntry.absent, RomEntry.absent,
    { valid := true, val := 1#2 }, RomEntry.absent,
    { valid := true, val := 1#2 }, { valid := true, val := 2#2 },
    RomEntry.absent, RomEntry.absent ]

/-- `R(q)`: the ROM that holds the rows of parity `q` (20_memory R53). -/
def romOf : Parity → List RomEntry
  | .even => evenRom
  | .odd => oddRom

/-- `MemRead(rom, a)`: the entry at a 3-bit entry address; it cannot fail (20_memory R53). -/
def memRead (rom : List RomEntry) (a : BitVec 3) : RomEntry :=
  rom.getD a.toNat RomEntry.absent

/-- The entry address `{bw[1:0], i}` (20_memory R53). -/
def romAddr (bw : BitVec 2) (i : BitVec 1) : BitVec 3 := bw ++ i

/-- `ROM_LEN[bw][q]`: the number of indices of the row with `valid = 1` (20_memory R53). -/
def romLen (bw : BitVec 2) (q : Parity) : Nat :=
  (memRead (romOf q) (romAddr bw 0#1)).valid.toNat + (memRead (romOf q) (romAddr bw 1#1)).valid.toNat

/-- `ROM[bw][q]`, the row in its stored order (20_memory R52). -/
def romRow (bw : BitVec 2) (q : Parity) : List Nat :=
  ([memRead (romOf q) (romAddr bw 0#1), memRead (romOf q) (romAddr bw 1#1)].filter RomEntry.valid).map fun e => e.val.toNat

end Sys2Proof.Machine
end

