-- ==== Sys2Proof/Machine/State.lean ====
section
/-!
DEFINITION. The machine's state as plain data: the record `S` of 10_state R20, the command in progress, the three channels of
30_encoding R70, the instance's parameters; and its value after reset (10_state R35, 70_reset R190).
-/

namespace Sys2Proof.Machine

/-- `ST`, the sequencing state (10_state R22). Its value 3 cannot be written down, as R22 asks. -/
inductive SeqState where
  /-- `IDLE = 0`: no sequence open. -/
  | idle
  /-- `ACTIVE = 1`: a sequence is open and the position designates an element not yet yielded. -/
  | active
  /-- `EXHAUSTED = 2`: a sequence is open and every element has been yielded. -/
  | exhausted
deriving DecidableEq, Repr

/-- The record `S = (ST, EW, EP, PH, BI)`: the whole architectural state (10_state R20). -/
structure Enumerator where
  /-- `ST` (10_state R22). -/
  st : SeqState
  /-- `EW`, the width of the open sequence (10_state R23). -/
  ew : Nat
  /-- `EP`, the parity of the open sequence (10_state R24). -/
  ep : Parity
  /-- `PH`, one bit for each level `j >= 3`: bit `j - 3` of this number is `PH[j]` (10_state R25; assumption log 9). -/
  ph : Nat
  /-- `BI`, the index of the next entry in the base row (10_state R26). -/
  bi : BitVec 1
deriving DecidableEq, Repr

/-- The one state with `ST = IDLE` (10_state R29 I-b, R35). -/
def Enumerator.idle : Enumerator :=
  { st := .idle, ew := 0, ep := .even, ph := 0, bi := 0#1 }

/-- The machine's state. The record `S` is `enum`; the other fields are the model's, as their docstrings say. -/
structure State where
  /-- The parameters of the instance (00_scope R6); no step writes them (10_state R27(d); assumption log 1). -/
  params : Params
  /-- The record `S` (10_state R20). -/
  enum : Enumerator
  /-- The command in progress whose draw has not been answered (70_reset R190, R208; assumption log 5). -/
  waiting : Option Instr
  /-- Command channel and reset input: what the host will present, oldest first (30_encoding R70; assumption log 3). -/
  host : List HostInput
  /-- Entropy channel: the answers the source will give, oldest first (30_encoding R83; assumption log 4). -/
  ent : List EntropyAnswer
  /-- Response channel: the responses sent, oldest first (30_encoding R70; assumption log 7). -/
  rsp : List Response
  /-- Entropy channel: the requests sent, each the number of bytes wanted, oldest first (30_encoding R83; assumption log 7). -/
  req : List Nat
  /-- How many resets have interrupted a draw: the index of the free value `Config.streamAfterReset` (assumption log 6). -/
  freeCtr : Nat
deriving DecidableEq, Repr

/-- The reasons a step can stop with a fault: none. Every exceptional condition of the spec is an error status in a response
(60_exceptions R160), and every command word is one of the six commands or answered as illegal (30_encoding R78)
(assumption log 10). -/
inductive Fault where
deriving DecidableEq, Repr

/-- The reasons a step can refuse. -/
inductive Refusal where
  /-- Raised by an arm of `exec` whose command has no meaning in the model; no arm raises it. Safe. -/
  | notModelled (mnemonic : String)
deriving DecidableEq, Repr

/-- An instance with parameters `p` right after reset: `S` as 10_state R35 says, no command in progress (70_reset R190),
nothing on any channel. -/
def State.resetWith (p : Params) : State :=
  { params := p, enum := Enumerator.idle, waiting := none, host := [], ent := [], rsp := [], req := [], freeCtr := 0 }

/-- The machine right after reset, at the suggested parameters of 00_scope R6 (assumption log 1). -/
def State.reset : State := State.resetWith Params.suggested

end Sys2Proof.Machine
end

