-- ==== Sys2Proof/Machine/Operands.lean ====
section
/-!
DEFINITION. The argument checks (60_exceptions R163, R165) and the quantities derived from the record `S` (10_state R28,
40_enumerator R109): the effective ROM address, the leading ones, the current element.
-/

namespace Sys2Proof.Machine

/-- `a > W_MAX` (60_exceptions R165); never true when `W_MAX` is unbounded. -/
def exceeds (p : Params) (a : Int) : Bool :=
  match p.wMax with
  | none => false
  | some m => decide ((m : Int) < a)

/-- The base width of width `w`: `min(w, 2)`, where the recursion ends (10_state R28, 40_enumerator R105). -/
def baseWidthOf (w : Nat) : BitVec 2 := BitVec.ofNat 2 (min w 2)

/-- `PH[j]` (10_state R25): there is a phase bit for each level `j >= 3`. -/
def Enumerator.phase (e : Enumerator) (j : Nat) : Bool :=
  decide (3 ≤ j) && e.ph.testBit (j - 3)

/-- The levels `3 .. EW` in rising order; none when `EW < 3` (00_scope R17). -/
def Enumerator.levels (e : Enumerator) : List Nat := List.range' 3 (e.ew - 2)

/-- `bw(S) = min(S.EW, 2)` (10_state R28). -/
def Enumerator.baseWidth (e : Enumerator) : BitVec 2 := baseWidthOf e.ew

/-- `flips(S) = PH[3] xor ... xor PH[EW]` (10_state R28). -/
def Enumerator.flips (e : Enumerator) : Bool :=
  e.levels.foldr (fun j acc => e.phase j ^^ acc) false

/-- `q(S) = S.EP xor flips(S)`, the parity of the base row in use (10_state R28). -/
def Enumerator.rowParity (e : Enumerator) : Parity :=
  if e.flips then e.ep.flip else e.ep

/-- `lead(S)`, the sum of the leading ones `2^(j-1)` of the levels in their flipped half (10_state R28). -/
def Enumerator.lead (e : Enumerator) : Nat :=
  (e.levels.map fun j => if e.phase j then 2 ^ (j - 1) else 0).sum

/-- `rowlen(S) = ROM_LEN[bw(S)][q(S)]` (10_state R28). -/
def Enumerator.rowLen (e : Enumerator) : Nat := romLen e.baseWidth e.rowParity

/-- `cur(S) = lead(S) + ROM[bw(S)][q(S)][S.BI]`, the element the next `NXT` yields (10_state R28, 40_enumerator R109). -/
def Enumerator.cur (e : Enumerator) : Nat :=
  e.lead + (memRead (romOf e.rowParity) (romAddr e.baseWidth e.bi)).val.toNat

end Sys2Proof.Machine
end

