-- ==== Sys2Proof/Machine/Ops.lean ====
section
/-!
DEFINITION. The named operations the commands share: responding, reporting an error (the block's only exception mechanism),
starting, advancing and closing a sequence, the one draw, reset, and what the block does next.
-/

namespace Sys2Proof.Machine

/-! ## Responding -/

/-- `respond(status, pat, ecode)`: end the command with one response word (00_scope R11, 30_encoding R80). -/
def respond (status : Status) (pat : Nat) (ecode : Nat) (s : State) : State :=
  { s with rsp := s.rsp ++ [{ status := status, pat := pat, ecode := ecode }], waiting := none }

/-- The exceptional conditions (60_exceptions R162). -/
inductive CommandError where
  /-- InvalidArgument (R163, R164). -/
  | invalidArgument
  /-- EntropySourceFailure, with the source's code (R168). -/
  | entropySourceFailure (e : Nat)
  /-- Range (R165). -/
  | range
  /-- Illegal command word (R166). -/
  | illegal
  /-- NoSequence (R167). -/
  | noSequence
deriving DecidableEq, Repr

/-- The status that reports an error (60_exceptions R162). -/
def errorStatus : CommandError → Status
  | .invalidArgument => .errInvalidArgument
  | .entropySourceFailure _ => .errEntropy
  | .range => .errRange
  | .illegal => .errIllegal
  | .noSequence => .errNoSeq

/-- The `ecode` recorded with an error: the source's code for an entropy failure, else 0 (60_exceptions R161, R162). -/
def errorCode : CommandError → Nat
  | .entropySourceFailure e => e
  | .invalidArgument => 0
  | .range => 0
  | .illegal => 0
  | .noSequence => 0

/-- `raise <Error>`, the block's taking of an exception: emit the error's response, write no field of `S`, end the command
(00_scope R11, 60_exceptions R161, R172). There is no return from it: nothing was saved (R173). -/
def raise (err : CommandError) (s : State) : State :=
  respond (errorStatus err) 0 (errorCode err) s

/-! ## The Enumerator's position -/

/-- The one state with `ST = EXHAUSTED` (10_state R29 I-b). -/
def Enumerator.exhausted : Enumerator :=
  { st := .exhausted, ew := 0, ep := .even, ph := 0, bi := 0#1 }

/-- The first position of the sequence of width `w` and parity `p` (40_enumerator R105). -/
def Enumerator.first (w : Nat) (p : Parity) : Enumerator :=
  { st := .active, ew := w, ep := p, ph := 0, bi := 0#1 }

/-- `S` after an accepted start: straight to `EXHAUSTED` when the base row is empty, else active (40_enumerator R105). -/
def Enumerator.start (w : Nat) (p : Parity) : Enumerator :=
  if romLen (baseWidthOf w) p = 0 then Enumerator.exhausted else Enumerator.first w p

/-- `min J`: the deepest level still in its same-parity half, if there is one (40_enumerator R110). -/
def Enumerator.deepestUnflipped (e : Enumerator) : Option Nat :=
  e.levels.find? fun j => !e.phase j

/-- `PH[j0] <- 1` and `PH[i] <- 0` for every `3 <= i < j0`; the levels above `j0` keep their phase (40_enumerator R110). -/
def raisePhase (ph j0 : Nat) : Nat :=
  ((ph >>> (j0 - 3)) <<< (j0 - 3)) ||| 2 ^ (j0 - 3)

/-- `advance(S)` (40_enumerator R110). -/
def Enumerator.advance (e : Enumerator) : Enumerator :=
  if e.bi.toNat + 1 < e.rowLen then { e with bi := e.bi + 1#1 }
  else match e.deepestUnflipped with
    | some j0 => { e with ph := raisePhase e.ph j0, bi := 0#1 }
    | none => Enumerator.exhausted

/-- `start(w, p)`: the argument checks, then the new sequence replaces whatever was open (40_enumerator R105, R106). -/
def startSequence (w : Int) (p : Parity) (s : State) : State :=
  if w < 0 then raise .invalidArgument s
  else if exceeds s.params w then raise .range s
  else respond .ok 0 0 { s with enum := Enumerator.start w.toNat p }

/-- `NXT`, by the value of `S.ST` (40_enumerator R108). The element is computed before the advance. -/
def pullElement (s : State) : State :=
  match s.enum.st with
  | .idle => raise .noSequence s
  | .exhausted => respond .endOfSequence 0 0 s
  | .active => respond .data s.enum.cur 0 { s with enum := s.enum.advance }

/-- `STP`: to the `IDLE` state (40_enumerator R112). -/
def closeSequence (s : State) : State :=
  respond .ok 0 0 { s with enum := Enumerator.idle }

/-! ## The Sampler's datapath -/

/-- `N = ceil(n / 8) = (n + 7) div 8`, the bytes a draw for bit length `n` asks for (41_sampler R132). -/
def drawCount (n : Nat) : Nat := (n + 7) / 8

/-- Step 2: `v0 = (raw | 2^(8N-1)) >> (8N - n)` (41_sampler R134). -/
def forceLength (n raw : Nat) : Nat :=
  (raw ||| 2 ^ (8 * drawCount n - 1)) >>> (8 * drawCount n - n)

/-- Steps 3 to 5: the value itself if its parity is the one wanted, else with its lowest set bit cleared, else the fallback
when that is zero and zero is disallowed (41_sampler R135, R136). -/
def correct (want : Parity) (zeroDisallowed : Bool) (v0 : Nat) : Nat :=
  if mismatch want v0 then
    if clb v0 = 0 ∧ zeroDisallowed = true then fallback want else clb v0
  else v0

/-- The request of `EntDraw(N)`: one request word for each drawing command, so none when this command's own request is
already outstanding (20_memory R56, 30_encoding R83). -/
def sendRequest (i : Instr) (count : Nat) (s : State) : State :=
  if s.waiting = some i then s else { s with req := s.req ++ [count] }

/-- `EntDraw(N)` of the command `i` at bit length `n`, and what follows its answer: a failure is reported with the source's
`ECW`-bit code and no retry, bytes are made into the pattern returned (41_sampler R132 to R136, 60_exceptions R168). With no
answer there the command stays in progress (70_reset R208; assumption log 5). -/
def sample (i : Instr) (n : Nat) (want : Parity) (zeroDisallowed : Bool) (s : State) : State :=
  let s' := sendRequest i (drawCount n) s
  match s.ent with
  | [] => { s' with waiting := some i }
  | .fail e :: rest => raise (.entropySourceFailure (e % 2 ^ s.params.ecw)) { s' with ent := rest }
  | .bytes d :: rest =>
    respond .data (correct want zeroDisallowed (forceLength n (assembleRaw (dataBytes (drawCount n) d)))) 0
      { s' with ent := rest }

/-! ## Reset, and what the block does next -/

/-- The effect of `rst` (70_reset R190): `S` becomes the reset state; a command in progress is abandoned without a response;
if its draw was outstanding, where the entropy stream stands afterwards is a free value (93 V9; assumption log 6). -/
def takeReset (s : State) : State :=
  if s.waiting.isSome then
    { s with enum := Enumerator.idle, waiting := none, ent := Config.streamAfterReset s.freeCtr, freeCtr := s.freeCtr + 1 }
  else { s with enum := Enumerator.idle }

/-- What the block does next. -/
inductive Action where
  /-- Take the reset at the head of the host's inputs; the inputs after it remain. -/
  | reset (rest : List HostInput)
  /-- Go on with the command in progress. -/
  | resume (i : Instr)
  /-- Take a command word; the inputs after it remain. -/
  | accept (cw : Int) (rest : List HostInput)
  /-- Nothing is presented. -/
  | rest
deriving DecidableEq, Repr

/-- Reset is taken in every state (70_reset R190; assumption log 8); a command word is taken only when no command is in
progress (30_encoding R70, 70_reset R200). -/
def nextAction (s : State) : Action :=
  match s.waiting, s.host with
  | _, .reset :: rest => .reset rest
  | some i, _ => .resume i
  | none, .command cw :: rest => .accept cw rest
  | none, [] => .rest

/-- Present a command word at the head of the command channel, with no command in progress. -/
def presentWord (cw : Int) (s : State) : State :=
  { s with host := .command cw :: s.host, waiting := none }

end Sys2Proof.Machine
end

