-- ==== Sys2Proof/Machine/Enumerator.lean ====
section
/-!
DEFINITION. The commands of the Parity Enumerator: `AEV`, `AOD`, `NXT`, `STP` (40_enumerator section 2).
-/

namespace Sys2Proof.Machine

/-- `AEV w`, start the even enumeration: `start(w, EVEN)` (40_enumerator R105). -/
def execAev (w : Int) (s : State) : Host.Outcome State Fault Refusal :=
  .next (startSequence w .even s)

/-- `AOD w`, start the odd enumeration: `start(w, ODD)` (40_enumerator R107). -/
def execAod (w : Int) (s : State) : Host.Outcome State Fault Refusal :=
  .next (startSequence w .odd s)

/-- `NXT`, pull one element (40_enumerator R108). -/
def execNxt (s : State) : Host.Outcome State Fault Refusal :=
  .next (pullElement s)

/-- `STP`, stop pulling (40_enumerator R112). -/
def execStp (s : State) : Host.Outcome State Fault Refusal :=
  .next (closeSequence s)

end Sys2Proof.Machine
end

