-- ==== Sys2Proof/Machine/Sampler.lean ====
section
/-!
DEFINITION. The commands of the Random Parity Sampler: `REV`, `ROD` (41_sampler section 3). They read and write no field of
`S` (R131).
-/

namespace Sys2Proof.Machine

/-- `REV n, az`, random pattern of even parity (41_sampler R138). At `n = 0` the flag acts against its name (R137). -/
def execRev (n : Int) (az : Bool) (s : State) : Host.Outcome State Fault Refusal :=
  .next <|
    if n < 0 then raise .invalidArgument s
    else if exceeds s.params n then raise .range s
    else if n = 0 then respond .data (if az then 3 else 0) 0 s
    else sample (.rev n az) n.toNat .even (revZeroDisallowed s.params az) s

/-- `ROD n`, random pattern of odd parity (41_sampler R139). `ROD 0` is unsatisfiable (60_exceptions R164). -/
def execRod (n : Int) (s : State) : Host.Outcome State Fault Refusal :=
  .next <|
    if n < 0 then raise .invalidArgument s
    else if n = 0 then raise .invalidArgument s
    else if exceeds s.params n then raise .range s
    else sample (.rod n) n.toNat .odd rodZeroDisallowed s

end Sys2Proof.Machine
end

