-- ==== Sys2Proof/Machine/Dispatch.lean ====
section
/-!
DEFINITION. One arm for each command, each one direct call of its meaning.
-/

namespace Sys2Proof.Machine

def exec (i : Instr) (s : State) : Host.Outcome State Fault Refusal :=
  match i with
  | .aev w => Sys2Proof.Machine.execAev w s
  | .aod w => Sys2Proof.Machine.execAod w s
  | .rev n az => Sys2Proof.Machine.execRev n az s
  | .rod n => Sys2Proof.Machine.execRod n s
  | .nxt => Sys2Proof.Machine.execNxt s
  | .stp => Sys2Proof.Machine.execStp s

end Sys2Proof.Machine
end

