-- ==== Sys2Proof/Machine/Step.lean ====
section
/-!
DEFINITION. One step of the machine: a reset, the command in progress, the next command word, or nothing.
-/

namespace Sys2Proof.Machine

/-- One step (00_scope R12). A word that decodes is executed; an illegal one is answered `ERR_ILLEGAL` before anything else is
looked at (60_exceptions R166, R171); with nothing presented the block keeps its state (R180). -/
def step (s : State) : Host.Outcome State Fault Refusal :=
  match nextAction s with
  | .reset rest => .next (takeReset { s with host := rest })
  | .resume i => exec i s
  | .accept cw rest =>
    match decode s.params cw with
    | .ok i => exec i { s with host := rest }
    | .error _ => .next (raise .illegal { s with host := rest })
  | .rest => .next s

/-- `s` with the `nbits`-bit word `w` presented on the command channel, so that the next step takes it: the head of the
host's inputs, with no command in progress (assumption log 3). -/
def State.withFetchWord (s : State) (nbits w : Nat) : State :=
  presentWord (Int.ofNat (w % 2 ^ nbits)) s

end Sys2Proof.Machine
end

