-- ==== Sys2Proof/Machine/Frames.lean ====
section
/-!
DEFINITION. The per-level reading of an open sequence (40_enumerator R119): a stack of iterator frames over a base frame, its
pull, and the stack that the registers of `S` stand for. The block keeps the registers (10_state R20) and no frame.
-/

namespace Sys2Proof.Machine

/-- The three states of a frame (40_enumerator R119). -/
inductive FrameState where
  /-- Yielding from the same-parity half. -/
  | same
  /-- Yielding from the flipped-parity half, the leading one added. -/
  | flipped
  /-- Exhausted. -/
  | exhausted
deriving DecidableEq, Repr

/-- A stack of frames (40_enumerator R119). -/
inductive FrameStack where
  /-- The base frame: it walks the row `ROM[bw][p]` and stands at index `next`. Its parity is the one it was asked for, `p_2`,
  which the rule's last step `p_(j-1)` gives at `j = 3` (assumption log 14). -/
  | base (bw : BitVec 2) (p : Parity) (next : Nat)
  /-- The frame of level `j`, asked for parity `p`, over its child, the stack of level `j - 1`. -/
  | frame (j : Nat) (p : Parity) (st : FrameState) (child : FrameStack)
deriving DecidableEq, Repr

/-- A new stack of width `w`, asked for parity `p`: every frame in its same-parity half, so asked for `p` too. Below width 3
there is the base frame alone (40_enumerator R101). -/
def FrameStack.create : Nat → Parity → FrameStack
  | 0, p => .base 0#2 p 0
  | 1, p => .base 1#2 p 0
  | 2, p => .base 2#2 p 0
  | w + 3, p => .frame (w + 3) p .same (FrameStack.create (w + 2) p)

/-- What the base frame does when pulled: the entry at its index, or the report of exhaustion. -/
def pullBase (bw : BitVec 2) (p : Parity) (next : Nat) : Option Nat × FrameStack :=
  match (romRow bw p)[next]? with
  | some v => (some v, .base bw p (next + 1))
  | none => (none, .base bw p next)

/-- What the frame of level `j` does in its flipped-parity half, from what its child answered: it adds `2^(j-1)`, or reports
exhaustion with its child. -/
def answerFlipped (j : Nat) (p : Parity) : Option Nat × FrameStack → Option Nat × FrameStack
  | (some v, child) => (some (v + 2 ^ (j - 1)), .frame j p .flipped child)
  | (none, child) => (none, .frame j p .exhausted child)

/-- What the frame of level `j` does in its same-parity half, from what its child answered and what a new child of the opposite
parity would answer: it passes the value up unchanged, or hands over to the new child. -/
def answerSame (j : Nat) (p : Parity) (fresh : Option Nat × FrameStack) :
    Option Nat × FrameStack → Option Nat × FrameStack
  | (some v, child) => (some v, .frame j p .same child)
  | (none, _) => answerFlipped j p fresh

/-- The first pull on a new stack of width `w` and parity `p`: what `pull` does on `FrameStack.create w p`, by recursion on the
width. -/
def pullNew : Nat → Parity → Option Nat × FrameStack
  | 0, p => pullBase 0#2 p 0
  | 1, p => pullBase 1#2 p 0
  | 2, p => pullBase 2#2 p 0
  | w + 3, p => answerSame (w + 3) p (pullNew (w + 2) p.flip) (pullNew (w + 2) p)

/-- A pull on a stack (40_enumerator R119): the value, or nothing when it reports exhaustion, and the stack it leaves. A frame
hands over from an exhausted child to the next one at the beginning of a pull. -/
def FrameStack.pull : FrameStack → Option Nat × FrameStack
  | .base bw p next => pullBase bw p next
  | .frame j p .same child => answerSame j p (pullNew (j - 1) p.flip) child.pull
  | .frame j p .flipped child => answerFlipped j p child.pull
  | .frame j p .exhausted child => (none, .frame j p .exhausted child)

/-- What `k` pulls one after the other answer. -/
def FrameStack.answers : Nat → FrameStack → List (Option Nat)
  | 0, _ => []
  | k + 1, t => t.pull.1 :: FrameStack.answers k t.pull.2

/-- The state of the outermost frame, if there is a frame above the base. -/
def FrameStack.outer : FrameStack → Option FrameState
  | .base _ _ _ => none
  | .frame _ _ st _ => some st

/-- The stack of level `j`, asked for parity `p`, that the phases and the base index of `e` stand for: frame `j` is in its
flipped-parity half exactly when `PH[j] = 1`, and its child is asked for the opposite parity then (40_enumerator R119). -/
def Enumerator.framesFrom (e : Enumerator) : Nat → Parity → FrameStack
  | 0, p => .base 0#2 p e.bi.toNat
  | 1, p => .base 1#2 p e.bi.toNat
  | 2, p => .base 2#2 p e.bi.toNat
  | j + 3, p =>
    if e.phase (j + 3) then .frame (j + 3) p .flipped (e.framesFrom (j + 2) p.flip)
    else .frame (j + 3) p .same (e.framesFrom (j + 2) p)

/-- The stack that the registers stand for: `p_w = EP` at the outermost level (40_enumerator R119). -/
def Enumerator.frames (e : Enumerator) : FrameStack := e.framesFrom e.ew e.ep

/-- The response that carries a frame's answer: `DATA` with the value, or `END` (40_enumerator R108, R119). -/
def frameResponse : Option Nat → Response
  | some v => { status := .data, pat := v, ecode := 0 }
  | none => { status := .endOfSequence, pat := 0, ecode := 0 }

end Sys2Proof.Machine
end

