-- ==== Sys2Proof/Machine/Channels.lean ====
section
/-!
DEFINITION. The words on the channels: the status codes and the response word (30_encoding R80, R81), the widths of the
command, response and request words (R71, R80, R83) and of the register `EW` (10_state R23).
-/

namespace Sys2Proof.Machine

/-- The status codes (30_encoding R81). -/
def statusCode : Status → BitVec 3
  | .ok => 0#3
  | .data => 1#3
  | .endOfSequence => 2#3
  | .errInvalidArgument => 3#3
  | .errEntropy => 4#3
  | .errRange => 5#3
  | .errIllegal => 6#3
  | .errNoSeq => 7#3

/-- The error statuses are the codes 3 to 7 (60_exceptions R160). -/
def isError (st : Status) : Bool := decide (3 ≤ (statusCode st).toNat)

/-- The bytes an instance can ask for at once, `ceil(W_MAX / 8)` (20_memory R60); none when `W_MAX` is unbounded. -/
def maxRequest (p : Params) : Option Nat := p.wMax.map fun m => (m + 7) / 8

/-- The width of the command word, `8 + ARGW` (30_encoding R71). -/
def commandWidth (p : Params) : Option Nat := p.wMax.map fun _ => 8 + p.argw

/-- The width of the response word, `3 + W_MAX + ECW` (30_encoding R80). -/
def responseWidth (p : Params) : Option Nat := p.wMax.map fun m => 3 + m + p.ecw

/-- The width of the request word, `ceil(log2(ceil(W_MAX/8) + 1))` (30_encoding R83). -/
def requestWidth (p : Params) : Option Nat := (maxRequest p).map fun k => ceilLog2 (k + 1)

/-- The width of the register `EW`, `ceil(log2(W_MAX + 1))` (10_state R23). -/
def ewWidth (p : Params) : Option Nat := p.wMax.map fun m => ceilLog2 (m + 1)

/-- The response word `RW`: `status` in bits `2:0`, `pat` in the `W_MAX` bits above, `ecode` in the `ECW` bits above that
(30_encoding R80). An unbounded instance has no such word (assumption log 2). -/
def responseWord (p : Params) (r : Response) : Option Nat :=
  match p.wMax with
  | none => none
  | some m => some ((statusCode r.status).toNat + (r.pat % 2 ^ m) * 2 ^ 3 + (r.ecode % 2 ^ p.ecw) * 2 ^ (3 + m))

end Sys2Proof.Machine
end

