-- ==== Sys2Proof/Machine/Sequence.lean ====
section
/-!
DEFINITION. The mathematics the Enumerator must produce: the sequence `SEQ(w, p)` of the doubling construction, its length and
its closed form (40_enumerator R101, R102, R113). No command reads these; statements compare the machine with them.
-/

namespace Sys2Proof.Machine

/-- `SEQ(w, p)` (40_enumerator R101): the base row for `w < 3`; above, the same-parity half and then the flipped-parity half
with the leading one `2^(w-1)` added. -/
def seqOf : Nat → Parity → List Nat
  | 0, p => romRow 0#2 p
  | 1, p => romRow 1#2 p
  | 2, p => romRow 2#2 p
  | w + 3, p => seqOf (w + 2) p ++ (seqOf (w + 2) p.flip).map fun v => 2 ^ (w + 2) + v

/-- `count(w, p)` (40_enumerator R102). -/
def seqCount : Nat → Parity → Nat
  | 0, .even => 1
  | 0, .odd => 0
  | w + 1, _ => 2 ^ w

/-- `elem(w, p, k) = 2k + (p xor par(k))` (40_enumerator R113). -/
def seqElem (p : Parity) (k : Nat) : Nat :=
  2 * k + (if p = par k then 0 else 1)

/-- The index of the next element: the number whose binary digits are `(PH[EW], ..., PH[3], BI)` (40_enumerator R113). -/
def Enumerator.index (e : Enumerator) : Nat := 2 * e.ph + e.bi.toNat

end Sys2Proof.Machine
end

