-- ==== Sys2Proof/Safety.lean ====
section
/-!
DEFINITION. What counts as a good state: the invariants of 10_state R29 and what the channels may hold (30_encoding R80, R83);
and the runs statements speak of.
-/

namespace Sys2Proof.Machine

/-- Invariants (I-b), (I-c) and (I-d) of 10_state R29; (I-a) holds by the type of `ST`, and (I-e) follows. -/
structure Enumerator.wf (p : Params) (e : Enumerator) : Prop where
  /-- (I-b): with no element left to yield every data register is 0. -/
  cleared : e.st ≠ .active → e.ew = 0 ∧ e.ep = .even ∧ e.ph = 0 ∧ e.bi = 0#1
  /-- (I-c): the width was accepted. -/
  width : e.st = .active → exceeds p e.ew = false
  /-- (I-c): no phase bit stands above the width. -/
  levels : e.st = .active → ∀ j, e.ew < j → e.phase j = false
  /-- (I-c): the base index designates an entry of the row in use. -/
  index : e.st = .active → e.bi.toNat < e.rowLen
  /-- (I-d): the empty row is never in use. -/
  nonempty : e.st = .active → ¬ (e.ew = 0 ∧ e.ep = .odd)

/-- A response that the fields of 30_encoding R80 can carry, with the unused fields zero. -/
structure ResponseWf (p : Params) (r : Response) : Prop where
  pat : ∀ m, p.wMax = some m → r.pat < 2 ^ m
  ecode : r.ecode < 2 ^ p.ecw
  noPat : r.status ≠ .data → r.pat = 0
  noEcode : r.status ≠ .errEntropy → r.ecode = 0

/-- A request of 20_memory R60: between 1 and `ceil(W_MAX/8)` bytes. -/
structure RequestWf (p : Params) (count : Nat) : Prop where
  pos : 1 ≤ count
  bound : ∀ k, maxRequest p = some k → count ≤ k

/-- A command in progress: a Sampler command whose argument passed every check, its own request the last one sent
(41_sampler R132, 70_reset R208). -/
def WaitingWf (p : Params) (req : List Nat) (i : Instr) : Prop :=
  ∃ n : Nat, 1 ≤ n ∧ exceeds p n = false ∧ (i = .rod n ∨ ∃ az, i = .rev n az) ∧ req.getLast? = some (drawCount n)

/-- The invariant that every step keeps. -/
structure State.Inv (s : State) : Prop where
  params : s.params.wf = true
  enum : s.enum.wf s.params
  waiting : ∀ i, s.waiting = some i → WaitingWf s.params s.req i
  responses : ∀ r ∈ s.rsp, ResponseWf s.params r
  requests : ∀ k ∈ s.req, RequestWf s.params k

/-- `k` pulls one after the other (40_enumerator R114); `DRAIN` of 30_encoding R85 is such a run up to the first response
that is not `DATA`. -/
def pulls : Nat → State → Host.Outcome State Fault Refusal
  | 0, s => .next s
  | k + 1, s =>
    match exec .nxt s with
    | .next t => pulls k t
    | .fault r => .fault r
    | .refused r => .refused r

/-- The start command of a parity: `AEV` or `AOD` (30_encoding R75). -/
def startCommand (w : Int) : Parity → Instr
  | .even => .aev w
  | .odd => .aod w

end Sys2Proof.Machine
end

