-- ==== Sys2Proof/Certificates/Slice0/Obligations.lean ====
section
/-!
DEFINITION. The statements for the provers. Each docstring names the rule of spec/ the statement is about.
-/

open Sys2Proof Sys2Proof.Machine

/-! ## Encoding -/

/-- 95_test_vectors section 2.6, 30_encoding R76: written command words and what they decode to. -/
def Obligations.WrittenWordsDecode : Prop :=
  decodeTableWord 40 0x0000000300 = some (.aev 3) ∧
  decodeTableWord 40 0x7FFFFFFF01 = some (.aod 2147483647) ∧
  decodeTableWord 40 0x8000000000 = some (.aev (-2147483648)) ∧
  decodeTableWord 40 0x000000050A = some (.rev 5 true) ∧
  decodeTableWord 40 0xFFFFFFFF03 = some (.rod (-1)) ∧
  decodeTableWord 40 0x0000000004 = some .nxt ∧
  decodeTableWord 40 0x0000000005 = some .stp ∧
  decodeTableWord 40 0x0000000006 = none ∧
  decodeTableWord 40 0x0000000010 = none ∧
  decodeTableWord 40 0x000000000B = none ∧
  decodeTableWord 40 0x0000000104 = none

/-- 30_encoding R71, R73, R84, R86: on a bounded instance decoding an encoded command gives it back, with every operand its
argument field can carry. (R86: the spec's own inference.) The statement covers the unbounded instance of 00_scope R6 too,
whose words the spec does not lay out: there the layout is the model's (assumption log 2). -/
def Obligations.DecodeOfEncodeIsIdentity : Prop :=
  ∀ (p : Params) (i : Instr), p.wf = true → i.wellFormed p = true → decode p (encode p i) = .ok i

/-- 30_encoding R71, R76, R78, R84: on a bounded instance a legal word is the encoding of the command it decodes to, bit for
bit. The statement covers the unbounded instance of 00_scope R6 too, whose words the spec does not lay out: there the layout
(`encode`, and `commandBits` as all of the word) is the model's (assumption log 2). -/
def Obligations.EncodeOfDecodeIsIdentity : Prop :=
  ∀ (p : Params) (cw : Int) (i : Instr), p.wf = true → decode p cw = .ok i →
    i.wellFormed p = true ∧ encode p i = p.commandBits cw

/-- 30_encoding R76, R86: each legal control byte decodes to its command, with the argument field as its operand. (R86: the
spec's own inference.) The argument field of an unbounded instance's word is the model's (assumption log 2). -/
def Obligations.ControlByteSelectsCommand : Prop :=
  ∀ (p : Params) (cw : Int),
    (cw % 256 = 0x00 → decode p cw = .ok (.aev (argField p cw))) ∧
    (cw % 256 = 0x01 → decode p cw = .ok (.aod (argField p cw))) ∧
    (cw % 256 = 0x02 → decode p cw = .ok (.rev (argField p cw) false)) ∧
    (cw % 256 = 0x0A → decode p cw = .ok (.rev (argField p cw) true)) ∧
    (cw % 256 = 0x03 → decode p cw = .ok (.rod (argField p cw))) ∧
    (cw % 256 = 0x04 → argField p cw = 0 → decode p cw = .ok .nxt) ∧
    (cw % 256 = 0x05 → argField p cw = 0 → decode p cw = .ok .stp)

/-- 30_encoding R73: on a bounded instance the operand is the `ARGW`-bit field above the control byte, read as a
two's-complement integer. -/
def Obligations.ArgumentFieldIsTwosComplement : Prop :=
  ∀ (p : Params) (m : Nat) (cw : Int), p.wf = true → p.wMax = some m →
    -(2 ^ (p.argw - 1) : Int) ≤ argField p cw ∧ argField p cw < (2 ^ (p.argw - 1) : Int) ∧
    argField p cw % 2 ^ p.argw = cw / 256 % 2 ^ p.argw

/-- 30_encoding R77: an illegal command word (a reserved bit set, a reserved opcode, a stray flag, a stray argument) is
answered `ERR_ILLEGAL`; no state changes and no draw is made. -/
def Obligations.IllegalWordAnsweredWithoutEffect : Prop :=
  ∀ (s : State) (cw : Int) (rest : List HostInput), s.waiting = none → s.host = .command cw :: rest →
    (cw / 16 % 16 ≠ 0 ∨ cw % 8 = 6 ∨ cw % 8 = 7 ∨ (cw / 8 % 2 = 1 ∧ cw % 8 ≠ 2) ∨
      (argField s.params cw ≠ 0 ∧ (cw % 8 = 4 ∨ cw % 8 = 5))) →
    step s = .next { s with host := rest, rsp := s.rsp ++ [⟨.errIllegal, 0, 0⟩] }

/-- 30_encoding R80: the fields of the response word of a bounded instance stand where the rule puts them. -/
def Obligations.ResponseWordFields : Prop :=
  ∀ (p : Params) (m : Nat) (r : Response), p.wMax = some m → ResponseWf p r →
    ∃ w, responseWord p r = some w ∧ w < 2 ^ (3 + m + p.ecw) ∧ w % 2 ^ 3 = (statusCode r.status).toNat ∧
      w / 2 ^ 3 % 2 ^ m = r.pat ∧ w / 2 ^ (3 + m) = r.ecode

/-! ## The step -/

/-- A step runs the decoded command: with no command in progress, the word at the head of the command channel is executed
in the state from which it has been taken, and nothing is added around it. That the host's words stand in a list is the
model's choice (assumption log 3). -/
def Obligations.StepRunsDecodedCommand : Prop :=
  ∀ (s : State) (cw : Int) (rest : List HostInput) (i : Instr),
    s.waiting = none → s.host = .command cw :: rest → decode s.params cw = .ok i → i.wellFormed s.params = true →
    step s = exec i { s with host := rest }

/-- 60_exceptions R180, 00_scope R12: with no command in progress and nothing presented, the block keeps its state. That such a
step exists is the model's choice (assumption log 3). -/
def Obligations.NothingPresentedChangesNothing : Prop :=
  ∀ s : State, s.waiting = none → s.host = [] → step s = .next s

/-- 30_encoding R70, 70_reset R200: while a command is in progress no command word is taken; the step goes on with the
command in progress and the presented words stay. The field `waiting` is the model's (assumption log 5). -/
def Obligations.CommandInProgressHoldsTheChannel : Prop :=
  ∀ (s : State) (i : Instr), s.waiting = some i → (∀ rest, s.host ≠ .reset :: rest) →
    step s = exec i s ∧ ∀ t, step s = .next t → t.host = s.host

/-- 70_reset R190: reset puts `S` in its reset state whatever it was, abandons a command in progress without a response, and
leaves the entropy stream alone when no draw was outstanding. Where a reset stands among the host's inputs and what it leaves
of the stream are the model's (assumption logs 3, 6, 8); the statement holds for every value of the free stream. -/
def Obligations.ResetIsTotal : Prop :=
  ∀ (s : State) (rest : List HostInput), s.host = .reset :: rest →
    ∃ t, step s = .next t ∧ t.enum = ⟨.idle, 0, .even, 0, 0#1⟩ ∧ t.waiting = none ∧ t.rsp = s.rsp ∧ t.req = s.req ∧
      t.host = rest ∧ t.params = s.params ∧ (s.waiting = none → t.ent = s.ent ∧ t.freeCtr = s.freeCtr)

/-- 10_state R35: the reset values of the five registers, on every instance. -/
def Obligations.ResetValues : Prop :=
  ∀ p : Params, (State.resetWith p).enum.st = .idle ∧ (State.resetWith p).enum.ew = 0 ∧ (State.resetWith p).enum.ep = .even ∧
    (∀ j, (State.resetWith p).enum.phase j = false) ∧ (State.resetWith p).enum.bi = 0#1 ∧
    State.reset.enum = (State.resetWith p).enum

/-- No step of the machine faults or refuses, in any state (30_encoding R78, 60_exceptions R160). -/
def Obligations.NoStepStops : Prop :=
  ∀ s : State, ∃ t, step s = .next t

/-- 30_encoding R70: a command ends with exactly one response, or stays in progress with none because its draw has no answer
yet (70_reset R208; the field `waiting` is the model's, assumption log 5). -/
def Obligations.OneResponsePerCommand : Prop :=
  ∀ (i : Instr) (s : State), ∃ t, exec i s = .next t ∧
    ((t.waiting = none ∧ ∃ r, t.rsp = s.rsp ++ [r]) ∨ (t.waiting = some i ∧ t.rsp = s.rsp ∧ s.ent = []))

/-- 10_state R27(d), section 10, 20_memory R63: the frame of all six commands. The parameters are unchanged (R27(d)), and the
answers of the entropy source are read in order (R63). In the model's own fields the host's inputs (assumption log 3) and the
free value's counter (log 6) are unchanged, the responses and requests already sent stay (log 7), and the entropy channel is
read from its head only (log 4). -/
def Obligations.CommandsFrame : Prop :=
  ∀ (i : Instr) (s t : State), exec i s = .next t →
    t.params = s.params ∧ t.host = s.host ∧ t.freeCtr = s.freeCtr ∧ s.rsp <+: t.rsp ∧ s.req <+: t.req ∧ t.ent <:+ s.ent

/-! ## Errors -/

/-- 60_exceptions R161: a command answered with an error status writes no field of `S` and ends, with no pattern. Unless the
status is `ERR_ENTROPY` it leaves the entropy source untouched and its code field is 0; with `ERR_ENTROPY` the draw has failed
and the code is the source's. The first clause is about the six commands, the second about a step, so about illegal words too. -/
def Obligations.ErrorLeavesStateAsItWas : Prop :=
  (∀ (i : Instr) (s t : State) (r : Response), exec i s = .next t → t.rsp = s.rsp ++ [r] → isError r.status = true →
    t.enum = s.enum ∧ t.waiting = none ∧ r.pat = 0 ∧
    (r.status ≠ .errEntropy → t.ent = s.ent ∧ t.req = s.req ∧ r.ecode = 0) ∧
    (r.status = .errEntropy → ∃ e, s.ent.head? = some (.fail e) ∧ t.ent = s.ent.tail ∧ r.ecode = e % 2 ^ s.params.ecw)) ∧
  (∀ (s t : State) (r : Response), step s = .next t → t.rsp = s.rsp ++ [r] → isError r.status = true →
    t.enum = s.enum ∧ t.waiting = none ∧ r.pat = 0 ∧
    (r.status ≠ .errEntropy → t.ent = s.ent ∧ t.req = s.req ∧ r.ecode = 0) ∧
    (r.status = .errEntropy → ∃ e, s.ent.head? = some (.fail e) ∧ t.ent = s.ent.tail ∧ r.ecode = e % 2 ^ s.params.ecw))

/-- 60_exceptions R163: a negative argument is answered `ERR_INVALID_ARGUMENT` by all four commands that take one. -/
def Obligations.NegativeArgumentRefused : Prop :=
  ∀ (a : Int) (az : Bool) (s : State), a < 0 → ∀ i ∈ [Instr.aev a, Instr.aod a, Instr.rev a az, Instr.rod a],
    exec i s = .next { s with waiting := none, rsp := s.rsp ++ [⟨.errInvalidArgument, 0, 0⟩] }

/-- 60_exceptions R164: `ROD 0` is answered `ERR_INVALID_ARGUMENT`; `AOD 0`, which opens an empty sequence, and `REV 0` are
not errors. -/
def Obligations.UnsatisfiableRequestRefused : Prop :=
  ∀ (az : Bool) (s : State),
    exec (.rod 0) s = .next { s with waiting := none, rsp := s.rsp ++ [⟨.errInvalidArgument, 0, 0⟩] } ∧
    (∃ t, exec (.aod 0) s = .next t ∧ t.rsp = s.rsp ++ [⟨.ok, 0, 0⟩] ∧ t.enum.st = .exhausted) ∧
    (∃ t v, exec (.rev 0 az) s = .next t ∧ t.rsp = s.rsp ++ [⟨.data, v, 0⟩])

/-- 60_exceptions R165: an argument above `W_MAX` is answered `ERR_RANGE`; with `W_MAX` unbounded no argument is. -/
def Obligations.ArgumentAboveLimitRefused : Prop :=
  ∀ (a : Int) (az : Bool) (s : State), ∀ i ∈ [Instr.aev a, Instr.aod a, Instr.rev a az, Instr.rod a],
    (∀ m : Nat, s.params.wMax = some m → (m : Int) < a →
      exec i s = .next { s with waiting := none, rsp := s.rsp ++ [⟨.errRange, 0, 0⟩] }) ∧
    (s.params.wMax = none → ∀ t, exec i s = .next t → t.rsp ≠ s.rsp ++ [⟨.errRange, 0, 0⟩])

/-- 60_exceptions R167: a pull with no sequence open is answered `ERR_NOSEQ`. -/
def Obligations.PullWithoutSequenceRefused : Prop :=
  ∀ s : State, s.enum.st = .idle →
    exec .nxt s = .next { s with waiting := none, rsp := s.rsp ++ [⟨.errNoSeq, 0, 0⟩] }

/-- 60_exceptions R168: a failed draw is answered `ERR_ENTROPY` with the source's code bit for bit and no pattern, after the
command's one request: the one sent now, or the one already outstanding when the command was in progress. -/
def Obligations.EntropyFailureReported : Prop :=
  ∀ (n e : Nat) (az : Bool) (s : State) (rest : List EntropyAnswer), 1 ≤ n → exceeds s.params n = false →
    s.ent = .fail e :: rest → e < 2 ^ s.params.ecw → ∀ i ∈ [Instr.rev n az, Instr.rod n],
    (s.waiting = none → exec i s =
      .next { s with ent := rest, req := s.req ++ [(n + 7) / 8], rsp := s.rsp ++ [⟨.errEntropy, 0, e⟩] }) ∧
    (s.waiting = some i → exec i s =
      .next { s with ent := rest, waiting := none, rsp := s.rsp ++ [⟨.errEntropy, 0, e⟩] })

/-- 60_exceptions R169: `NXT` in `ACTIVE` or `EXHAUSTED` and `STP` in any state always succeed; a `REV` or `ROD` with an
accepted argument fails only if its draw fails. -/
def Obligations.WhatCannotFail : Prop :=
  (∀ s : State, s.enum.st ≠ .idle → ∃ t r, exec .nxt s = .next t ∧ t.rsp = s.rsp ++ [r] ∧ isError r.status = false) ∧
  (∀ s : State, ∃ t r, exec .stp s = .next t ∧ t.rsp = s.rsp ++ [r] ∧ isError r.status = false) ∧
  (∀ (n : Nat) (az : Bool) (s t : State) (r : Response), exceeds s.params n = false → exec (.rev n az) s = .next t →
    t.rsp = s.rsp ++ [r] → isError r.status = true → r.status = .errEntropy ∧ ∃ e, s.ent.head? = some (.fail e)) ∧
  (∀ (n : Nat) (s t : State) (r : Response), 1 ≤ n → exceeds s.params n = false → exec (.rod n) s = .next t →
    t.rsp = s.rsp ++ [r] → isError r.status = true → r.status = .errEntropy ∧ ∃ e, s.ent.head? = some (.fail e))

/-- 30_encoding R81, 60_exceptions R162: which command can return which status. -/
def Obligations.StatusesOfEachCommand : Prop :=
  ∀ (i : Instr) (s t : State) (r : Response), exec i s = .next t → t.rsp = s.rsp ++ [r] →
    match i with
    | .aev _ => r.status ∈ [Status.ok, Status.errInvalidArgument, Status.errRange]
    | .aod _ => r.status ∈ [Status.ok, Status.errInvalidArgument, Status.errRange]
    | .rev _ _ => r.status ∈ [Status.data, Status.errInvalidArgument, Status.errEntropy, Status.errRange]
    | .rod _ => r.status ∈ [Status.data, Status.errInvalidArgument, Status.errEntropy, Status.errRange]
    | .nxt => r.status ∈ [Status.data, Status.endOfSequence, Status.errNoSeq]
    | .stp => r.status = Status.ok

/-! ## The Enumerator's commands -/

/-- 40_enumerator R105: an accepted `AEV w` opens the even sequence at its first position and answers `OK`; nothing else
changes. -/
def Obligations.AevOpensEvenSequence : Prop :=
  ∀ (w : Nat) (s : State), exceeds s.params w = false →
    exec (.aev w) s =
      .next { s with enum := ⟨.active, w, .even, 0, 0#1⟩, waiting := none, rsp := s.rsp ++ [⟨.ok, 0, 0⟩] }

/-- 40_enumerator R107: an accepted `AOD w` opens the odd sequence at its first position; `AOD 0` goes straight to
`EXHAUSTED`; both answer `OK`. -/
def Obligations.AodOpensOddSequence : Prop :=
  ∀ (w : Nat) (s : State), exceeds s.params w = false →
    exec (.aod w) s =
      .next { s with enum := if w = 0 then ⟨.exhausted, 0, .even, 0, 0#1⟩ else ⟨.active, w, .odd, 0, 0#1⟩,
                     waiting := none, rsp := s.rsp ++ [⟨.ok, 0, 0⟩] }

/-- 40_enumerator R106: an accepted start replaces whatever was open with the new sequence at its first element, so what was
open makes no difference; a refused one leaves the old sequence exactly as it was. -/
def Obligations.StartReplacesOrLeavesOpenSequence : Prop :=
  ∀ (w : Int) (p : Parity) (s : State) (e : Enumerator), ∃ t u,
    exec (startCommand w p) s = .next t ∧ exec (startCommand w p) { s with enum := e } = .next u ∧ u.rsp = t.rsp ∧
    (0 ≤ w → exceeds s.params w = false → u.enum = t.enum ∧
      (¬ (w = 0 ∧ p = .odd) → t.enum = ⟨.active, w.toNat, p, 0, 0#1⟩) ∧
      (w = 0 ∧ p = .odd → t.enum = ⟨.exhausted, 0, .even, 0, 0#1⟩)) ∧
    (w < 0 ∨ exceeds s.params w = true → t.enum = s.enum ∧ u.enum = e)

/-- 40_enumerator R110: the advance, register by register. -/
def Obligations.AdvanceMovesThePosition : Prop :=
  ∀ e : Enumerator,
    (e.bi.toNat + 1 < e.rowLen → e.advance = { e with bi := 1#1 }) ∧
    (¬ e.bi.toNat + 1 < e.rowLen → ∀ j0, 3 ≤ j0 → j0 ≤ e.ew → e.phase j0 = false →
      (∀ i, 3 ≤ i → i < j0 → e.phase i = true) →
      e.advance.st = e.st ∧ e.advance.ew = e.ew ∧ e.advance.ep = e.ep ∧ e.advance.bi = 0#1 ∧
      e.advance.phase j0 = true ∧ (∀ i, i < j0 → e.advance.phase i = false) ∧
      (∀ i, j0 < i → e.advance.phase i = e.phase i)) ∧
    (¬ e.bi.toNat + 1 < e.rowLen → (∀ i, 3 ≤ i → i ≤ e.ew → e.phase i = true) →
      e.advance = ⟨.exhausted, 0, .even, 0, 0#1⟩)

/-- 40_enumerator R108: with a sequence active, `NXT` answers the current element, computed before the advance, and moves the
position; nothing else changes. -/
def Obligations.NxtAnswersTheCurrentElement : Prop :=
  ∀ s : State, s.enum.st = .active →
    exec .nxt s = .next { s with enum := s.enum.advance, waiting := none, rsp := s.rsp ++ [⟨.data, s.enum.cur, 0⟩] }

/-- 40_enumerator R113, R114: in every active state that meets the invariant `NXT` answers the element of `SEQ(EW, EP)` at
the position's index and moves to the next index, or to `EXHAUSTED` after the last element. (R113, R114: the spec's own
inference.) -/
def Obligations.NxtWalksTheSequence : Prop :=
  ∀ s : State, s.enum.wf s.params → s.enum.st = .active →
    ∃ t v, exec .nxt s = .next t ∧ (seqOf s.enum.ew s.enum.ep)[s.enum.index]? = some v ∧
      t.rsp = s.rsp ++ [⟨.data, v, 0⟩] ∧ t.ent = s.ent ∧ t.req = s.req ∧ t.host = s.host ∧ t.params = s.params ∧
      (s.enum.index + 1 < seqCount s.enum.ew s.enum.ep →
        t.enum.st = .active ∧ t.enum.ew = s.enum.ew ∧ t.enum.ep = s.enum.ep ∧ t.enum.index = s.enum.index + 1) ∧
      (s.enum.index + 1 = seqCount s.enum.ew s.enum.ep → t.enum = ⟨.exhausted, 0, .even, 0, 0#1⟩)

/-- 40_enumerator R111: the `NXT` that yields the last element moves the state to `EXHAUSTED`; there any number of pulls answer
`END` and change nothing; and a step leaves `EXHAUSTED` only by a reset or by `AEV`, `AOD` (to a new sequence) or `STP` (to
`IDLE`). -/
def Obligations.ExhaustedStaysExhausted : Prop :=
  (∀ s : State, s.enum.wf s.params → s.enum.st = .active → s.enum.index + 1 = seqCount s.enum.ew s.enum.ep →
    ∃ t v, exec .nxt s = .next t ∧ t.rsp = s.rsp ++ [⟨.data, v, 0⟩] ∧ t.enum.st = .exhausted) ∧
  (∀ (k : Nat) (s : State), s.enum.st = .exhausted → s.waiting = none →
    pulls k s = .next { s with rsp := s.rsp ++ List.replicate k (⟨.endOfSequence, 0, 0⟩ : Response) }) ∧
  (∀ s t : State, s.enum.st = .exhausted → step s = .next t → t.enum ≠ s.enum →
    (∃ rest, s.host = .reset :: rest) ∨
    ∃ i, ((∃ cw rest, s.host = .command cw :: rest ∧ decode s.params cw = .ok i) ∨ s.waiting = some i) ∧
      ((i = .stp ∧ t.enum.st = .idle) ∨
        ∃ w : Nat, (i = .aev w ∧ t.enum = ⟨.active, w, .even, 0, 0#1⟩) ∨
          (i = .aod w ∧ 1 ≤ w ∧ t.enum = ⟨.active, w, .odd, 0, 0#1⟩) ∨ (i = .aod 0 ∧ t.enum.st = .exhausted)))

/-- 40_enumerator R112: `STP` is accepted in every state and leaves the `IDLE` state. -/
def Obligations.StpClosesTheSequence : Prop :=
  ∀ s : State,
    exec .stp s = .next { s with enum := ⟨.idle, 0, .even, 0, 0#1⟩, waiting := none, rsp := s.rsp ++ [⟨.ok, 0, 0⟩] }

/-- 40_enumerator R114, R100, R119: after an accepted start, `k` pulls answer the first `k` elements of `SEQ(w, p)` in order
and then `END`, for every `k`; and a new stack of frames of that width and parity answers the same to `k` pulls. In every active
state that meets the invariant the stack that the registers stand for answers the current element; the next pull on what it
leaves, where an exhausted child is handed over, is the pull on the stack of the advanced registers; and at the last element the
registers are `EXHAUSTED` one pull before the outermost frame is. (R114, R119: the spec's own inference. The base frame's
parity: assumption log 14.) -/
def Obligations.DrainYieldsTheSequence : Prop :=
  (∀ (w : Nat) (p : Parity) (s : State), exceeds s.params w = false →
    ∃ t0, exec (startCommand w p) s = .next t0 ∧ ∀ k, ∃ t, pulls k t0 = .next t ∧
      t.rsp = t0.rsp ++
        ((seqOf w p).map (fun v => (⟨.data, v, 0⟩ : Response)) ++ List.replicate k (⟨.endOfSequence, 0, 0⟩ : Response)).take k ∧
      t.rsp = t0.rsp ++ ((FrameStack.create w p).answers k).map frameResponse) ∧
  (∀ (p : Params) (e : Enumerator), e.wf p → e.st = .active →
    e.frames.pull.1 = some e.cur ∧
    (e.advance.st = .active → e.frames.pull.2.pull = e.advance.frames.pull) ∧
    (e.advance.st ≠ .active → e.advance.st = .exhausted ∧ e.frames.pull.2.pull.1 = none ∧
      (3 ≤ e.ew → e.frames.pull.2.outer = some .flipped ∧ e.frames.pull.2.pull.2.outer = some .exhausted)))

/-- 40_enumerator R113: the element at the current position is `2k + (EP xor par(k))` at its index `k`, for `EW >= 1`.
(R113: the spec's own inference.) -/
def Obligations.CurrentElementClosedForm : Prop :=
  ∀ (p : Params) (e : Enumerator), e.wf p → e.st = .active → 1 ≤ e.ew →
    e.index < 2 ^ (e.ew - 1) ∧ e.cur = seqElem e.ep e.index

/-- 10_state R29 (I-e): the current element is below `2^EW` and has the parity `EP`. (R29: the spec's own inference.) -/
def Obligations.CurrentElementRangeAndParity : Prop :=
  ∀ (p : Params) (e : Enumerator), e.wf p → e.st = .active → e.cur < 2 ^ e.ew ∧ par e.cur = e.ep

/-! ## The sequence -/

/-- 40_enumerator R102: the lengths of the sequences. (R102: the spec's own inference.) -/
def Obligations.SequenceCounts : Prop :=
  (seqOf 0 .even).length = 1 ∧ (seqOf 0 .odd).length = 0 ∧
  (∀ (w : Nat) (p : Parity), 1 ≤ w → (seqOf w p).length = 2 ^ (w - 1)) ∧
  ∀ w : Nat, (seqOf w .even).length + (seqOf w .odd).length = 2 ^ w

/-- 40_enumerator R113: the closed form of the sequence. (R113: the spec's own inference.) -/
def Obligations.SequenceClosedForm : Prop :=
  ∀ (w : Nat) (p : Parity), 1 ≤ w → seqOf w p = (List.range (2 ^ (w - 1))).map (seqElem p)

/-- 40_enumerator R103, R117: the two sequences of a width together hold every number below `2^w` exactly once, each in the
sequence of its own parity. (R103, R117: the spec's own inference.) -/
def Obligations.SequencesPartitionTheRange : Prop :=
  ∀ w : Nat, List.Perm (seqOf w .even ++ seqOf w .odd) (List.range (2 ^ w)) ∧
    ∀ (p : Parity) (v : Nat), v ∈ seqOf w p → par v = p

/-- 40_enumerator R118: the order is strictly ascending. (R118: the spec's own inference.) -/
def Obligations.SequenceAscends : Prop :=
  ∀ (w : Nat) (p : Parity), (seqOf w p).Pairwise (· < ·)

/-! ## The base-case ROMs -/

/-- 20_memory R52: the six rows, in their stored order, and their lengths. -/
def Obligations.RomRows : Prop :=
  romRow 0#2 .even = [0] ∧ romRow 0#2 .odd = [] ∧ romRow 1#2 .even = [0] ∧ romRow 1#2 .odd = [1] ∧
  romRow 2#2 .even = [0, 3] ∧ romRow 2#2 .odd = [1, 2] ∧
  romLen 0#2 .even = 1 ∧ romLen 0#2 .odd = 0 ∧ romLen 1#2 .even = 1 ∧ romLen 1#2 .odd = 1 ∧
  romLen 2#2 .even = 2 ∧ romLen 2#2 .odd = 2

/-- 20_memory R53, R61: the entry address is `{bw, i}`; the row length counts the valid entries, which are the lowest indices
and hold the row; and what stands at each of the eight addresses of each ROM. -/
def Obligations.RomOrganisation : Prop :=
  (∀ (bw : BitVec 2) (i : BitVec 1), (romAddr bw i).toNat = 2 * bw.toNat + i.toNat) ∧
  (∀ (bw : BitVec 2) (q : Parity),
    romLen bw q = ([0#1, 1#1].filter fun i => (memRead (romOf q) (romAddr bw i)).valid).length ∧
    ∀ i : BitVec 1, (i.toNat < romLen bw q ↔ (memRead (romOf q) (romAddr bw i)).valid = true) ∧
      ((memRead (romOf q) (romAddr bw i)).valid = true →
        (romRow bw q)[i.toNat]? = some (memRead (romOf q) (romAddr bw i)).val.toNat)) ∧
  ((List.range 8).map fun a => memRead evenRom (BitVec.ofNat 3 a)) =
    [⟨true, 0#2⟩, ⟨false, 0#2⟩, ⟨true, 0#2⟩, ⟨false, 0#2⟩, ⟨true, 0#2⟩, ⟨true, 3#2⟩, ⟨false, 0#2⟩, ⟨false, 0#2⟩] ∧
  ((List.range 8).map fun a => memRead oddRom (BitVec.ofNat 3 a)) =
    [⟨false, 0#2⟩, ⟨false, 0#2⟩, ⟨true, 1#2⟩, ⟨false, 0#2⟩, ⟨true, 1#2⟩, ⟨true, 2#2⟩, ⟨false, 0#2⟩, ⟨false, 0#2⟩]

/-! ## Bits -/

/-- 00_scope R13: `popcount` is the sum of the bits, with the values the rule gives, at most the width of its operand. -/
def Obligations.PopcountCountsBits : Prop :=
  (∀ m v : Nat, v < 2 ^ m → popcount v = ((List.range m).map fun i => v / 2 ^ i % 2).sum ∧ popcount v ≤ m) ∧
  popcount 0 = 0 ∧ (∀ k : Nat, popcount (2 ^ k) = 1) ∧ ∀ k : Nat, popcount (2 ^ k - 1) = k

/-- 00_scope R14: `clb` clears exactly the lowest set bit and flips the parity. -/
def Obligations.ClbClearsLowestSetBit : Prop :=
  (∀ v t : Nat, v.testBit t = true → (∀ i < t, v.testBit i = false) →
    clb v = v &&& (v - 1) ∧ clb v = v - 2 ^ t ∧ popcount (clb v) + 1 = popcount v ∧ par (clb v) = (par v).flip ∧
    ∀ i > t, (clb v).testBit i = v.testBit i) ∧
  (∀ v : Nat, 1 ≤ v → (clb v = 0 ↔ popcount v = 1)) ∧ clb 0 = 0

/-- 00_scope R15(a): a leading one added above a pattern is a bitwise OR and raises the popcount by one. (R15: the spec's
own inference.) -/
def Obligations.LeadingOneFlipsParity : Prop :=
  ∀ w v : Nat, 1 ≤ w → v < 2 ^ (w - 1) →
    2 ^ (w - 1) + v = 2 ^ (w - 1) ||| v ∧ popcount (2 ^ (w - 1) + v) = popcount v + 1 ∧
    par (2 ^ (w - 1) + v) = (par v).flip

/-- 20_memory R57: the bytes of a draw form the number in which the first byte drawn is least significant; it has `8N` bits. -/
def Obligations.DrawnBytesLittleEndian : Prop :=
  ∀ b : List Byte, assembleRaw b = ((List.range b.length).map fun k => (b.getD k 0#8).toNat * 2 ^ (8 * k)).sum ∧
    assembleRaw b < 2 ^ (8 * b.length)

/-- 41_sampler R134: forcing the length. With `N = ceil(n/8)` bytes `b` assembled into `raw` and `s = 8N - n <= 7`, the result
`(raw | 2^(8N-1)) >> s` has exactly `n` significant bits; its bits below the top are bits `s` and up of `raw`, each a bit of the
byte that the rule names. -/
def Obligations.ForcedLengthIsExact : Prop :=
  ∀ (n : Nat) (b : List Byte), 1 ≤ n → b.length = (n + 7) / 8 →
    let s := 8 * b.length - n
    let raw := assembleRaw b
    let v0 := forceLength n raw
    s ≤ 7 ∧ v0 = (raw ||| 2 ^ (8 * b.length - 1)) / 2 ^ s ∧ v0.testBit (n - 1) = true ∧
    2 ^ (n - 1) ≤ v0 ∧ v0 ≤ 2 ^ n - 1 ∧ len v0 = n ∧ 1 ≤ v0 ∧ 1 ≤ popcount v0 ∧
    ∀ i, i + 2 ≤ n → v0.testBit i = raw.testBit (i + s) ∧ v0.testBit i = (b.getD ((i + s) / 8) 0#8).getLsbD ((i + s) % 8)

/-! ## The Sampler's commands -/

/-- 41_sampler R137(a), R138: `REV 0` answers 0 when the flag is clear and 3 when it is set, without a draw. -/
def Obligations.RevOfLengthZero : Prop :=
  ∀ (az : Bool) (s : State),
    exec (.rev 0 az) s = .next { s with waiting := none, rsp := s.rsp ++ [⟨.data, if az then 3 else 0, 0⟩] }

/-- 41_sampler R138: `REV n, az` with an answered draw, in full: one request of `ceil(n/8)` bytes, one answer consumed, the
pattern the rule computes from the bytes, `S` untouched. -/
def Obligations.RevAnswersTheCorrectedDraw : Prop :=
  ∀ (n d : Nat) (az : Bool) (s : State) (rest : List EntropyAnswer), 1 ≤ n → exceeds s.params n = false →
    s.waiting = none → s.ent = .bytes d :: rest →
    let count := (n + 7) / 8
    let raw := ((List.range count).map fun k => d / 2 ^ (8 * k) % 2 ^ 8 * 2 ^ (8 * k)).sum
    let v0 := (raw ||| 2 ^ (8 * count - 1)) / 2 ^ (8 * count - n)
    let c := v0 &&& (v0 - 1)
    let v1 := if popcount v0 % 2 = 0 then v0 else if c = 0 ∧ az ≠ s.params.step4AzNatural then 3 else c
    exec (.rev n az) s =
      .next { s with ent := rest, req := s.req ++ [count], rsp := s.rsp ++ [⟨.data, v1, 0⟩] }

/-- 41_sampler R139: `ROD n` with an answered draw, in full. -/
def Obligations.RodAnswersTheCorrectedDraw : Prop :=
  ∀ (n d : Nat) (s : State) (rest : List EntropyAnswer), 1 ≤ n → exceeds s.params n = false →
    s.waiting = none → s.ent = .bytes d :: rest →
    let count := (n + 7) / 8
    let raw := ((List.range count).map fun k => d / 2 ^ (8 * k) % 2 ^ 8 * 2 ^ (8 * k)).sum
    let v0 := (raw ||| 2 ^ (8 * count - 1)) / 2 ^ (8 * count - n)
    let c := v0 &&& (v0 - 1)
    let v1 := if popcount v0 % 2 = 1 then v0 else if c = 0 then 1 else c
    exec (.rod n) s =
      .next { s with ent := rest, req := s.req ++ [count], rsp := s.rsp ++ [⟨.data, v1, 0⟩] }

/-- 41_sampler R131: `REV` and `ROD` write no field of `S` and read none: the rest of the next state is the same whatever `S`
is; and their response is a function of the command and of the entropy answer alone, on one instance. -/
def Obligations.SamplerIgnoresTheEnumerator : Prop :=
  (∀ (n : Int) (az : Bool) (s t : State) (e : Enumerator), ∀ i ∈ [Instr.rev n az, Instr.rod n], exec i s = .next t →
    t.enum = s.enum ∧ exec i { s with enum := e } = .next { t with enum := e }) ∧
  (∀ (n : Int) (az : Bool) (s u : State), ∀ i ∈ [Instr.rev n az, Instr.rod n], s.params = u.params →
    s.ent.head? = u.ent.head? →
    ∃ t v l, exec i s = .next t ∧ exec i u = .next v ∧ t.rsp = s.rsp ++ l ∧ v.rsp = u.rsp ++ l)

/-- 20_memory R56, 41_sampler R132: with no command in progress, a command makes exactly one draw, of `ceil(n/8)` bytes, if it
is `REV` or `ROD` with `1 <= n <= W_MAX`, and otherwise none. -/
def Obligations.DrawsAreMadeOnlyByAcceptedSamplerCommands : Prop :=
  ∀ (i : Instr) (s t : State), s.waiting = none → exec i s = .next t →
    ((∃ n : Nat, 1 ≤ n ∧ exceeds s.params n = false ∧ (i = .rod n ∨ ∃ az, i = .rev n az)) →
      t.req = s.req ++ [(i.arg.toNat + 7) / 8] ∧ t.ent = s.ent.tail) ∧
    (¬ (∃ n : Nat, 1 ≤ n ∧ exceeds s.params n = false ∧ (i = .rod n ∨ ∃ az, i = .rev n az)) →
      t.req = s.req ∧ t.ent = s.ent)

/-- 70_reset R208: a drawing command whose request has no answer stays in progress, and the block changes nothing until an
answer or a reset comes. The field `waiting` is the model's (assumption log 5). -/
def Obligations.UnansweredDrawWaits : Prop :=
  ∀ (n : Nat) (az : Bool) (s : State), 1 ≤ n → exceeds s.params n = false → s.waiting = none → s.ent = [] →
    ∀ i ∈ [Instr.rev n az, Instr.rod n],
    exec i s = .next { s with req := s.req ++ [(n + 7) / 8], waiting := some i } ∧
    ∀ u : State, u = { s with req := s.req ++ [(n + 7) / 8], waiting := some i } → (∀ rest, u.host ≠ .reset :: rest) →
      step u = .next u

/-- 00_scope R12, 10_state R34(b): waiting is not visible: an answer that comes later gives the state that it would have given
at once. The model's own property of its field `waiting` (assumption log 5). -/
def Obligations.LateAnswerGivesTheSameState : Prop :=
  ∀ (i : Instr) (s t : State) (a : EntropyAnswer) (rest : List EntropyAnswer), s.waiting = none → s.ent = [] →
    exec i s = .next t → t.waiting = some i →
    exec i { t with ent := a :: rest } = exec i { s with ent := a :: rest }

/-- 41_sampler R143: on a value of exactly `n` bits the correction gives zero only from `2^(n-1)`, whose parity is odd; so
the odd fallback is unreachable. (R143: the spec's own inference.) -/
def Obligations.ZeroTestFiresOnlyOnTheForcedBit : Prop :=
  ∀ n v0 : Nat, 1 ≤ n → 2 ^ (n - 1) ≤ v0 → v0 < 2 ^ n →
    (clb v0 = 0 ↔ v0 = 2 ^ (n - 1)) ∧ par (2 ^ (n - 1)) = .odd ∧ (mismatch .odd v0 = true → clb v0 ≠ 0) ∧
    (v0 ≠ 2 ^ (n - 1) → 2 ^ (n - 1) ≤ clb v0 ∧ clb v0 < 2 ^ n)

/-- 41_sampler R140: whatever bytes are drawn, `ROD n` answers an odd pattern of exactly `n` bits. (R140: the spec's own
inference.) -/
def Obligations.RodPostcondition : Prop :=
  ∀ (n d : Nat) (s : State) (rest : List EntropyAnswer), 1 ≤ n → exceeds s.params n = false → s.ent = .bytes d :: rest →
    ∃ t v1, exec (.rod n) s = .next t ∧ t.rsp = s.rsp ++ [⟨.data, v1, 0⟩] ∧ t.enum = s.enum ∧
      2 ^ (n - 1) ≤ v1 ∧ v1 ≤ 2 ^ n - 1 ∧ len v1 = n ∧ par v1 = .odd

/-- 41_sampler R140, R143, 70_reset R205: whatever bytes are drawn, `REV n, az` answers an even pattern, of exactly `n` bits
unless the constructed value is `2^(n-1)`, when it answers 3 or 0 as the flag and `STEP4_AZ_NATURAL` say. (R140, R143: the
spec's own inference.) -/
def Obligations.RevPostcondition : Prop :=
  ∀ (n d : Nat) (az : Bool) (s : State) (rest : List EntropyAnswer), 1 ≤ n → exceeds s.params n = false →
    s.ent = .bytes d :: rest →
    ∃ t v1, exec (.rev n az) s = .next t ∧ t.rsp = s.rsp ++ [⟨.data, v1, 0⟩] ∧ t.enum = s.enum ∧ par v1 = .even ∧
      (forceLength n (d % 2 ^ (8 * ((n + 7) / 8))) ≠ 2 ^ (n - 1) → 2 ^ (n - 1) ≤ v1 ∧ v1 ≤ 2 ^ n - 1 ∧ len v1 = n) ∧
      (forceLength n (d % 2 ^ (8 * ((n + 7) / 8))) = 2 ^ (n - 1) → v1 = if az = s.params.step4AzNatural then 0 else 3)

/-- 41_sampler R141: the values that the correction maps to a pattern `r` of the wanted parity and of exactly `n` bits are
`r` itself and `r + 2^t` for each `t` below the position of its lowest set bit. (R141: the spec's own inference.) -/
def Obligations.CorrectionPreimages : Prop :=
  ∀ (n r tz v0 : Nat) (want : Parity) (zd : Bool), 1 ≤ n → 2 ^ (n - 1) ≤ r → r < 2 ^ n → par r = want →
    (n = 2 → want = .odd) → r.testBit tz = true → (∀ i < tz, r.testBit i = false) →
    2 ^ (n - 1) ≤ v0 → v0 < 2 ^ n →
    (correct want zd v0 = r ↔ v0 = r ∨ ∃ t < tz, v0 = r + 2 ^ t)

/-! ## Invariants -/

/-- The invariant holds at reset, on every instance whose parameters meet 00_scope R6. -/
def Obligations.ResetMeetsTheInvariant : Prop :=
  (∀ p : Params, p.wf = true → (State.resetWith p).Inv) ∧ State.reset.Inv

/-- 10_state R29, 30_encoding R80, R82, 20_memory R60: every step keeps the invariant, in every state that meets it. (R29:
the spec's own inference.) -/
def Obligations.StepKeepsTheInvariant : Prop :=
  ∀ s t : State, s.Inv → step s = .next t → t.Inv

/-- 10_state R23, 30_encoding R83, R80: what the invariant's states hold fits the registers and words of the widths the spec
gives. -/
def Obligations.ContentsFitTheirWidths : Prop :=
  ∀ s : State, s.Inv →
    (∀ k, ewWidth s.params = some k → s.enum.ew < 2 ^ k) ∧
    (∀ m, s.params.wMax = some m → s.enum.ph < 2 ^ (m - 2)) ∧
    (∀ k, requestWidth s.params = some k → ∀ count ∈ s.req, count < 2 ^ k) ∧
    (∀ k, responseWidth s.params = some k → ∀ r ∈ s.rsp, ∃ w, responseWord s.params r = some w ∧ w < 2 ^ k)

/-- 10_state R27(d), 60_exceptions R170, R181: no step changes the parameters, and a step changes `S` only by a reset or by
executing `AEV`, `AOD`, `NXT` or `STP`. (R181: the spec's own inference.) -/
def Obligations.OnlyEnumeratorCommandsAndResetMoveS : Prop :=
  ∀ s t : State, step s = .next t →
    t.params = s.params ∧
    (t.enum ≠ s.enum →
      (∃ rest, s.host = .reset :: rest) ∨
      ∃ i, ((∃ cw rest, s.host = .command cw :: rest ∧ decode s.params cw = .ok i) ∨ s.waiting = some i) ∧
        (i = .nxt ∨ i = .stp ∨ ∃ w, i = .aev w ∨ i = .aod w))
end

