-- ==== Sys2Proof/Laws/Bits.lean ====
section
/-!
SUPPORT. Small laws of the bit functions and of the draw's datapath.
-/

namespace Sys2Proof.Machine

/-! ## Counting bits -/

/-- `len v` bits hold `v`. -/
theorem lt_two_pow_len (v : Nat) : v < 2 ^ len v := by
  unfold len
  split
  · next h => simp [h]
  · exact Nat.lt_log2_self

/-- No shorter field holds `v`. -/
theorem len_le_of_lt {v m : Nat} (h : v < 2 ^ m) : len v ≤ m := by
  unfold len
  split
  · exact Nat.zero_le m
  · next h0 => exact (Nat.log2_lt h0).2 h

/-- At most one bit for each position. -/
theorem bitCount_le (k v : Nat) : bitCount k v ≤ k := by
  induction k with
  | zero => simp [bitCount]
  | succ k ih => simp only [bitCount]; have := Bool.toNat_le (v.testBit k); omega

/-- Only the positions below `k` count. -/
theorem bitCount_congr {k v w : Nat} (h : ∀ i < k, v.testBit i = w.testBit i) : bitCount k v = bitCount k w := by
  induction k with
  | zero => rfl
  | succ k ih => simp only [bitCount]; rw [ih (fun i hi => h i (by omega)), h k (by omega)]

/-- No bit is set above the value. -/
theorem bitCount_of_lt {v m : Nat} (h : v < 2 ^ m) (j : Nat) : bitCount (m + j) v = bitCount m v := by
  induction j with
  | zero => rfl
  | succ j ih =>
    rw [Nat.add_succ, bitCount, ih, Nat.testBit_lt_two_pow (lt_of_lt_of_le h (Nat.pow_le_pow_right (by omega) (by omega)))]
    rfl

/-- The popcount can be taken over any field that holds the value. -/
theorem popcount_eq_bitCount {v m : Nat} (h : v < 2 ^ m) : popcount v = bitCount m v := by
  have := bitCount_of_lt (lt_two_pow_len v) (m - len v)
  rw [Nat.add_sub_cancel' (len_le_of_lt h)] at this
  exact this.symm

/-- Counting from the low end. -/
theorem bitCount_succ_low (k v : Nat) : bitCount (k + 1) v = v % 2 + bitCount k (v / 2) := by
  induction k with
  | zero =>
    simp only [bitCount, Nat.testBit_zero]
    rcases Nat.mod_two_eq_zero_or_one v with h | h <;> simp [h]
  | succ k ih =>
    rw [bitCount, ih, bitCount, Nat.testBit_add_one, Nat.add_assoc]

/-- The popcount of a value with one more low bit. -/
theorem popcount_two_mul_add (v b : Nat) (hb : b < 2) : popcount (2 * v + b) = popcount v + b := by
  have h1 := lt_two_pow_len v
  have h2 : 2 * v + b < 2 ^ (len v + 1) := by rw [Nat.pow_succ]; omega
  rw [popcount_eq_bitCount h2, bitCount_succ_low, popcount_eq_bitCount h1]
  rw [show (2 * v + b) % 2 = b by omega, show (2 * v + b) / 2 = v by omega, Nat.add_comm]

theorem par_odd_iff (v : Nat) : par v = .odd ↔ popcount v % 2 = 1 := by
  unfold par; split <;> simp <;> omega

theorem par_even_iff (v : Nat) : par v = .even ↔ popcount v % 2 = 0 := by
  unfold par; split <;> simp <;> omega

theorem par_succ {v w : Nat} (h : popcount v = popcount w + 1) : par v = (par w).flip := by
  unfold par; rw [h]; split <;> split <;> simp [Parity.flip] <;> omega

/-- A value split at its lowest set bit. -/
theorem lowest_split {v t : Nat} (ht : v.testBit t = true) (hl : ∀ i < t, v.testBit i = false) :
    v = 2 ^ (t + 1) * (v / 2 ^ (t + 1)) + 2 ^ t := by
  have hm : v % 2 ^ t = 0 := by
    apply Nat.eq_of_testBit_eq; intro i
    rw [Nat.testBit_mod_two_pow]
    by_cases h : i < t
    · simp [h, hl i h]
    · simp [h]
  have h1 : v / 2 ^ t % 2 = 1 := by
    have := Nat.testBit_eq_decide_div_mod_eq (x := v) (i := t)
    rw [ht] at this; simpa using this.symm
  have h2 := Nat.div_add_mod v (2 ^ t)
  have h3 : v / 2 ^ (t+1) = v / 2 ^ t / 2 := by rw [Nat.pow_succ, Nat.div_div_eq_div_mul]
  rw [h3, Nat.pow_succ]
  have h4 := Nat.div_add_mod (v / 2 ^ t) 2
  rw [h1] at h4
  calc v = 2 ^ t * (v / 2 ^ t) := by omega
    _ = 2 ^ t * (2 * (v / 2 ^ t / 2) + 1) := by rw [h4]
    _ = _ := by ring

/-- `clb` on a value split at its lowest set bit. -/
theorem clb_split (u t : Nat) : clb (2 ^ (t + 1) * u + 2 ^ t) = 2 ^ (t + 1) * u := by
  have hp : 0 < 2 ^ t := Nat.two_pow_pos t
  have e : 2 ^ (t + 1) * u + 2 ^ t - 1 = 2 ^ (t + 1) * u + (2 ^ t - 1) := by omega
  unfold clb
  rw [e]
  apply Nat.eq_of_testBit_eq; intro i
  have l1 : 2 ^ t < 2 ^ (t+1) := by rw [Nat.pow_succ]; omega
  have l2 : 2 ^ t - 1 < 2 ^ (t+1) := by omega
  rw [Nat.testBit_and, Nat.testBit_two_pow_mul_add _ l1, Nat.testBit_two_pow_mul_add _ l2, Nat.testBit_two_pow_mul]
  by_cases h : i < t + 1
  · simp only [h, if_true, Nat.testBit_two_pow_sub_one, Nat.testBit_two_pow]
    rw [show decide (i ≥ t + 1) = false by simp; omega]
    by_cases h' : t = i <;> simp [h']
  · simp [h, show i ≥ t + 1 by omega]

/-- A value that is not zero has a lowest set bit. -/
theorem exists_lowest {v : Nat} (h : 1 ≤ v) : ∃ t, v.testBit t = true ∧ ∀ i < t, v.testBit i = false := by
  have hx : ∃ t, v.testBit t = true := by
    by_contra hn
    push Not at hn
    have : v = 0 := Nat.eq_of_testBit_eq (fun i => by simpa using hn i)
    omega
  refine ⟨Nat.find hx, Nat.find_spec hx, fun i hi => by simpa using Nat.find_min hx hi⟩

/-! ## The draw -/

/-- One more byte at the top. -/
theorem assembleRaw_append (l : List Byte) (x : Byte) :
    assembleRaw (l ++ [x]) = assembleRaw l + 2 ^ (8 * l.length) * x.toNat := by
  induction l with
  | nil => simp [assembleRaw]
  | cons a l ih => simp only [List.cons_append, assembleRaw, ih, List.length_cons, Nat.mul_add, Nat.pow_add]; ring

/-- The bytes of a data field assemble to its low bits. -/
theorem assembleRaw_dataBytes (k d : Nat) : assembleRaw (dataBytes k d) = d % 2 ^ (8 * k) := by
  induction k with
  | zero => simp [dataBytes, assembleRaw, Nat.mod_one]
  | succ k ih =>
    unfold dataBytes at *
    rw [List.range_succ, List.map_append, List.map_singleton, assembleRaw_append, ih]
    simp only [List.length_map, List.length_range, dataByte, BitVec.toNat_ofNat]
    rw [Nat.shiftRight_eq_div_pow, Nat.mul_add, Nat.pow_add, Nat.mod_mul]

/-- The bits of the forced value. -/
theorem forceLength_testBit (n raw i : Nat) (hn : 1 ≤ n) : (forceLength n raw).testBit i =
    (raw.testBit (i + (8 * drawCount n - n)) || decide (i = n - 1)) := by
  have : n ≤ 8 * drawCount n := by unfold drawCount; omega
  unfold forceLength
  rw [Nat.testBit_shiftRight, Nat.testBit_or, Nat.testBit_two_pow, Nat.add_comm]
  congr 1; simp; omega

end Sys2Proof.Machine
end

