-- ==== Sys2Proof/Laws/Frames.lean ====
section
/-!
SUPPORT. What a pull on a stack of frames can do (40_enumerator R119).
-/

namespace Sys2Proof.Machine

@[simp] theorem answerFlipped_some (j : Nat) (p : Parity) (v : Nat) (t : FrameStack) :
    answerFlipped j p (some v, t) = (some (v + 2 ^ (j - 1)), .frame j p .flipped t) := rfl
@[simp] theorem answerFlipped_none (j : Nat) (p : Parity) (t : FrameStack) :
    answerFlipped j p (none, t) = (none, .frame j p .exhausted t) := rfl
@[simp] theorem answerSame_some (j : Nat) (p : Parity) (f : Option Nat × FrameStack) (v : Nat) (t : FrameStack) :
    answerSame j p f (some v, t) = (some v, .frame j p .same t) := rfl
@[simp] theorem answerSame_none (j : Nat) (p : Parity) (f : Option Nat × FrameStack) (t : FrameStack) :
    answerSame j p f (none, t) = answerFlipped j p f := rfl

@[simp] theorem FrameStack.pull_base (bw : BitVec 2) (p : Parity) (next : Nat) :
    (FrameStack.base bw p next).pull = pullBase bw p next := rfl
@[simp] theorem FrameStack.pull_same (j : Nat) (p : Parity) (t : FrameStack) :
    (FrameStack.frame j p .same t).pull = answerSame j p (pullNew (j - 1) p.flip) t.pull := rfl
@[simp] theorem FrameStack.pull_flipped (j : Nat) (p : Parity) (t : FrameStack) :
    (FrameStack.frame j p .flipped t).pull = answerFlipped j p t.pull := rfl
@[simp] theorem FrameStack.pull_exhausted (j : Nat) (p : Parity) (t : FrameStack) :
    (FrameStack.frame j p .exhausted t).pull = (none, .frame j p .exhausted t) := rfl

/-- The first pull on a new stack is a pull on the stack that `create` makes. -/
theorem FrameStack.pull_create (w : Nat) (p : Parity) : (FrameStack.create w p).pull = pullNew w p := by
  induction w using Nat.strong_induction_on generalizing p with
  | _ w ih =>
    match w with
    | 0 => rfl
    | 1 => rfl
    | 2 => rfl
    | w + 3 =>
      rw [FrameStack.create, FrameStack.pull_same, ih (w + 2) (by omega), pullNew]
      rfl

/-- A stack that has answered nothing answers nothing again, and stays as it is. -/
theorem FrameStack.pull_after_none (t u : FrameStack) (h : t.pull = (none, u)) : u.pull = (none, u) := by
  have hf : ∀ (j : Nat) (p : Parity) (a : Option Nat × FrameStack), answerFlipped j p a = (none, u) → u.pull = (none, u) := by
    rintro j p ⟨_ | v, c⟩ h
    · rw [answerFlipped_none, Prod.mk.injEq] at h
      rw [← h.2, FrameStack.pull_exhausted]
    · simp at h
  match t with
  | .base bw p next =>
    simp only [FrameStack.pull_base, pullBase] at h
    split at h
    · simp at h
    · next hn =>
      rw [Prod.mk.injEq] at h
      rw [← h.2, FrameStack.pull_base, pullBase, hn]
  | .frame j p .same child =>
    rw [FrameStack.pull_same] at h
    match hc : child.pull with
    | (some v, c) => simp [hc] at h
    | (none, c) => rw [hc, answerSame_none] at h; exact hf _ _ _ h
  | .frame j p .flipped child => exact hf _ _ _ h
  | .frame j p .exhausted child =>
    rw [FrameStack.pull_exhausted, Prod.mk.injEq] at h
    rw [← h.2, FrameStack.pull_exhausted]

/-- The elements that a stack has still to answer. -/
def FrameStack.remaining : FrameStack → List Nat
  | .base bw p next => (romRow bw p).drop next
  | .frame j p .same child => child.remaining ++ (seqOf (j - 1) p.flip).map fun v => 2 ^ (j - 1) + v
  | .frame j _ .flipped child => child.remaining.map fun v => 2 ^ (j - 1) + v
  | .frame _ _ .exhausted _ => []

/-- An answer that gives the first of the elements `l` and leaves the others. -/
def PullsHead (a : Option Nat × FrameStack) (l : List Nat) : Prop := a.1 = l.head? ∧ a.2.remaining = l.tail

theorem pullBase_pullsHead (bw : BitVec 2) (p : Parity) (i : Nat) : PullsHead (pullBase bw p i) ((romRow bw p).drop i) := by
  unfold pullBase PullsHead
  cases h : (romRow bw p)[i]? with
  | none =>
    have h' := List.getElem?_eq_none_iff.1 h
    simp [h, FrameStack.remaining]
    omega
  | some v => simp [h, FrameStack.remaining]

theorem answerFlipped_pullsHead {j : Nat} {p : Parity} {a : Option Nat × FrameStack} {l : List Nat} (h : PullsHead a l) :
    PullsHead (answerFlipped j p a) (l.map fun v => 2 ^ (j - 1) + v) := by
  obtain ⟨o, c⟩ := a
  obtain ⟨h1, h2⟩ := h
  cases l with
  | nil => simp at h1; subst h1; simp [PullsHead, FrameStack.remaining]
  | cons x l => simp at h1 h2; subst h1; simp [PullsHead, FrameStack.remaining, h2, Nat.add_comm]

theorem answerSame_pullsHead {j : Nat} {p : Parity} {a f : Option Nat × FrameStack} {l : List Nat} (h : PullsHead a l)
    (hf : PullsHead f (seqOf (j - 1) p.flip)) :
    PullsHead (answerSame j p f a) (l ++ (seqOf (j - 1) p.flip).map fun v => 2 ^ (j - 1) + v) := by
  obtain ⟨o, c⟩ := a
  obtain ⟨h1, h2⟩ := h
  cases l with
  | nil => simp at h1; subst h1; exact answerFlipped_pullsHead hf
  | cons x l => simp at h1 h2; subst h1; simp [PullsHead, FrameStack.remaining, h2]

theorem pullNew_pullsHead (w : Nat) (p : Parity) : PullsHead (pullNew w p) (seqOf w p) := by
  induction w using Nat.strong_induction_on generalizing p with
  | _ w ih =>
    match w with
    | 0 => exact pullBase_pullsHead _ _ 0
    | 1 => exact pullBase_pullsHead _ _ 0
    | 2 => exact pullBase_pullsHead _ _ 0
    | w + 3 => exact answerSame_pullsHead (ih (w + 2) (by omega) p) (ih (w + 2) (by omega) p.flip)

/-- Everything a pull can do: it answers the first remaining element, or nothing when none remains, and leaves the others. -/
theorem FrameStack.pull_pullsHead (t : FrameStack) : PullsHead t.pull t.remaining := by
  induction t with
  | base bw p i => exact pullBase_pullsHead _ _ _
  | frame j p st c ih =>
    cases st with
    | same => exact answerSame_pullsHead ih (pullNew_pullsHead _ _)
    | flipped => exact answerFlipped_pullsHead ih
    | exhausted => simp [PullsHead, FrameStack.remaining]

end Sys2Proof.Machine
end

