-- ==== Sys2Proof/Laws/Operands.lean ====
section
/-!
SUPPORT. Small laws of the derived quantities of the record `S` and of the ROM reads.
-/

namespace Sys2Proof.Machine

/-- The two values of one bit. -/
theorem bit_cases (b : BitVec 1) : b = 0#1 ∨ b = 1#1 := by revert b; decide

/-- An initial value moves out of an exclusive or. -/
theorem foldr_xor (f : Nat → Bool) (l : List Nat) (b : Bool) :
    l.foldr (fun j acc => f j ^^ acc) b = (l.foldr (fun j acc => f j ^^ acc) false ^^ b) := by
  induction l with
  | nil => simp
  | cons a l ih => simp [ih]

/-- Level `3 + i` stands in bit `i`. -/
theorem Enumerator.phase_level (e : Enumerator) (i : Nat) : e.phase (3 + i) = e.ph.testBit i := by
  simp [Enumerator.phase]

/-- `flips` is the parity of the phase bits of the levels. -/
theorem Enumerator.flips_eq (e : Enumerator) : e.flips = decide (bitCount (e.ew - 2) e.ph % 2 = 1) := by
  unfold Enumerator.flips Enumerator.levels
  generalize e.ew - 2 = n
  induction n with
  | zero => rfl
  | succ n ih =>
    rw [List.range'_1_concat, List.foldr_append, List.foldr_cons, List.foldr_nil, Bool.xor_false, foldr_xor, ih, Enumerator.phase_level, bitCount]
    cases e.ph.testBit n
    · simp
    · simp
      rcases Nat.mod_two_eq_zero_or_one (bitCount n e.ph) with h | h <;> simp [h] <;> omega

/-- `lead` is four times the number that the phase bits form. -/
theorem Enumerator.lead_eq (e : Enumerator) : e.lead = 4 * (e.ph % 2 ^ (e.ew - 2)) := by
  unfold Enumerator.lead Enumerator.levels
  generalize e.ew - 2 = n
  induction n with
  | zero => simp [Nat.mod_one]
  | succ n ih =>
    rw [List.range'_1_concat, List.map_append, List.sum_append, ih, List.map_singleton, List.sum_singleton, Enumerator.phase_level,
      Nat.mod_pow_succ, Nat.testBit_eq_decide_div_mod_eq]
    rcases Nat.mod_two_eq_zero_or_one (e.ph / 2 ^ n) with h | h <;> rw [h]
    · simp
    · simp [show 3 + n - 1 = n + 2 by omega, Nat.pow_succ]; ring

/-- In a good active state the phases fit the width. -/
theorem Enumerator.ph_lt {p : Params} {e : Enumerator} (h : e.wf p) (ha : e.st = .active) : e.ph < 2 ^ (e.ew - 2) := by
  apply Nat.lt_pow_two_of_testBit
  intro i hi
  rw [← Enumerator.phase_level]
  exact h.levels ha _ (by omega)

/-- The parity of the base row in terms of the phases. -/
theorem Enumerator.rowParity_eq {e : Enumerator} (h : e.ph < 2 ^ (e.ew - 2)) : e.rowParity = if par e.ph = .odd then e.ep.flip else e.ep := by
  unfold Enumerator.rowParity
  rw [Enumerator.flips_eq, ← popcount_eq_bitCount h]
  simp [par_odd_iff]

/-- The rows of base width 2 are full. -/
theorem romLen_two (q : Parity) : romLen 2#2 q = 2 := by cases q <;> decide

/-- The entries of the rows of base width 2. -/
theorem memRead_two (q : Parity) (i : BitVec 1) : (memRead (romOf q) (romAddr 2#2 i)).val.toNat =
    2 * i.toNat + (if (q = .odd) = (i = 1#1) then 0 else 1) := by
  revert i; cases q <;> decide

/-- The base width from width 2 on. -/
theorem Enumerator.baseWidth_two {e : Enumerator} (h : 2 ≤ e.ew) : e.baseWidth = 2#2 := by
  simp [Enumerator.baseWidth, baseWidthOf, Nat.min_eq_right h]

/-- The row in use from width 2 on. -/
theorem Enumerator.rowLen_two {e : Enumerator} (hw : 2 ≤ e.ew) : e.rowLen = 2 := by
  rw [Enumerator.rowLen, Enumerator.baseWidth_two hw, romLen_two]

/-- What the search over a range of levels finds. -/
theorem find?_range' {f : Nat → Bool} {s n : Nat} :
    (∀ j0, (List.range' s n).find? f = some j0 → s ≤ j0 ∧ j0 < s + n ∧ f j0 = true ∧ ∀ i, s ≤ i → i < j0 → f i = false) ∧
    ((List.range' s n).find? f = none → ∀ i, s ≤ i → i < s + n → f i = false) := by
  induction n generalizing s with
  | zero => simp; omega
  | succ n ih =>
    rw [List.range'_succ, List.find?_cons]
    constructor
    · intro j0 h
      split at h
      · next hf =>
        injection h with h; subst h; exact ⟨by omega, by omega, hf, fun i _ _ => by omega⟩
      · next hf =>
        obtain ⟨a, b, c, d⟩ := (ih (s := s + 1)).1 j0 h
        refine ⟨by omega, by omega, c, fun i h1 h2 => ?_⟩
        rcases Nat.eq_or_lt_of_le h1 with rfl | h1
        · simpa using hf
        · exact d i h1 h2
    · intro h i h1 h2
      split at h
      · cases h
      · next hf =>
        rcases Nat.eq_or_lt_of_le h1 with rfl | h1
        · simpa using hf
        · exact (ih (s := s + 1)).2 h i h1 (by omega)

/-- The phases after `raisePhase`, bit by bit. -/
theorem raisePhase_testBit (ph j0 i : Nat) (hj : 3 ≤ j0) : (raisePhase ph j0).testBit i =
    if i < j0 - 3 then false else if i = j0 - 3 then true else ph.testBit i := by
  unfold raisePhase
  rw [Nat.testBit_or, Nat.testBit_shiftLeft, Nat.testBit_shiftRight, Nat.testBit_two_pow]
  by_cases h1 : i < j0 - 3
  · simp [h1]; omega
  · by_cases h2 : i = j0 - 3
    · simp [h2]
    · rw [if_neg h1, if_neg h2, show j0 - 3 + (i - (j0 - 3)) = i by omega]
      simp [show j0 ≤ i + 3 by omega, show ¬ j0 - 3 = i by omega]

end Sys2Proof.Machine
end

