-- ==== Sys2Proof/Laws/State.lean ====
section
/-!
SUPPORT. One lemma for each field of each update of State, so that no proof unfolds a record update.
-/

namespace Sys2Proof.Machine

/-! ## The state after reset -/

@[simp] theorem State.resetWith_params (p : Params) : (State.resetWith p).params = p := rfl
@[simp] theorem State.resetWith_enum (p : Params) : (State.resetWith p).enum = Enumerator.idle := rfl
@[simp] theorem State.resetWith_waiting (p : Params) : (State.resetWith p).waiting = none := rfl
@[simp] theorem State.resetWith_host (p : Params) : (State.resetWith p).host = [] := rfl
@[simp] theorem State.resetWith_ent (p : Params) : (State.resetWith p).ent = [] := rfl
@[simp] theorem State.resetWith_rsp (p : Params) : (State.resetWith p).rsp = [] := rfl
@[simp] theorem State.resetWith_req (p : Params) : (State.resetWith p).req = [] := rfl
@[simp] theorem State.resetWith_freeCtr (p : Params) : (State.resetWith p).freeCtr = 0 := rfl

theorem State.reset_eq : State.reset = State.resetWith Params.suggested := rfl

/-! ## Responding -/

@[simp] theorem respond_params (st : Status) (pat ecode : Nat) (s : State) : (respond st pat ecode s).params = s.params := rfl
@[simp] theorem respond_enum (st : Status) (pat ecode : Nat) (s : State) : (respond st pat ecode s).enum = s.enum := rfl
@[simp] theorem respond_waiting (st : Status) (pat ecode : Nat) (s : State) : (respond st pat ecode s).waiting = none := rfl
@[simp] theorem respond_host (st : Status) (pat ecode : Nat) (s : State) : (respond st pat ecode s).host = s.host := rfl
@[simp] theorem respond_ent (st : Status) (pat ecode : Nat) (s : State) : (respond st pat ecode s).ent = s.ent := rfl
@[simp] theorem respond_rsp (st : Status) (pat ecode : Nat) (s : State) : (respond st pat ecode s).rsp = s.rsp ++ [⟨st, pat, ecode⟩] := rfl
@[simp] theorem respond_req (st : Status) (pat ecode : Nat) (s : State) : (respond st pat ecode s).req = s.req := rfl
@[simp] theorem respond_freeCtr (st : Status) (pat ecode : Nat) (s : State) : (respond st pat ecode s).freeCtr = s.freeCtr := rfl

@[simp] theorem raise_params (err : CommandError) (s : State) : (raise err s).params = s.params := rfl
@[simp] theorem raise_enum (err : CommandError) (s : State) : (raise err s).enum = s.enum := rfl
@[simp] theorem raise_waiting (err : CommandError) (s : State) : (raise err s).waiting = none := rfl
@[simp] theorem raise_host (err : CommandError) (s : State) : (raise err s).host = s.host := rfl
@[simp] theorem raise_ent (err : CommandError) (s : State) : (raise err s).ent = s.ent := rfl
@[simp] theorem raise_rsp (err : CommandError) (s : State) : (raise err s).rsp = s.rsp ++ [⟨errorStatus err, 0, errorCode err⟩] := rfl
@[simp] theorem raise_req (err : CommandError) (s : State) : (raise err s).req = s.req := rfl
@[simp] theorem raise_freeCtr (err : CommandError) (s : State) : (raise err s).freeCtr = s.freeCtr := rfl

@[simp] theorem closeSequence_params (s : State) : (closeSequence s).params = s.params := rfl
@[simp] theorem closeSequence_enum (s : State) : (closeSequence s).enum = Enumerator.idle := rfl
@[simp] theorem closeSequence_waiting (s : State) : (closeSequence s).waiting = none := rfl
@[simp] theorem closeSequence_host (s : State) : (closeSequence s).host = s.host := rfl
@[simp] theorem closeSequence_ent (s : State) : (closeSequence s).ent = s.ent := rfl
@[simp] theorem closeSequence_rsp (s : State) : (closeSequence s).rsp = s.rsp ++ [⟨.ok, 0, 0⟩] := rfl
@[simp] theorem closeSequence_req (s : State) : (closeSequence s).req = s.req := rfl
@[simp] theorem closeSequence_freeCtr (s : State) : (closeSequence s).freeCtr = s.freeCtr := rfl

/-! ## Presenting a word -/

@[simp] theorem presentWord_params (cw : Int) (s : State) : (presentWord cw s).params = s.params := rfl
@[simp] theorem presentWord_enum (cw : Int) (s : State) : (presentWord cw s).enum = s.enum := rfl
@[simp] theorem presentWord_waiting (cw : Int) (s : State) : (presentWord cw s).waiting = none := rfl
@[simp] theorem presentWord_host (cw : Int) (s : State) : (presentWord cw s).host = .command cw :: s.host := rfl
@[simp] theorem presentWord_ent (cw : Int) (s : State) : (presentWord cw s).ent = s.ent := rfl
@[simp] theorem presentWord_rsp (cw : Int) (s : State) : (presentWord cw s).rsp = s.rsp := rfl
@[simp] theorem presentWord_req (cw : Int) (s : State) : (presentWord cw s).req = s.req := rfl
@[simp] theorem presentWord_freeCtr (cw : Int) (s : State) : (presentWord cw s).freeCtr = s.freeCtr := rfl

theorem withFetchWord_eq (s : State) (nbits w : Nat) :
    s.withFetchWord nbits w = presentWord (Int.ofNat (w % 2 ^ nbits)) s := rfl

/-! ## The request of a draw -/

@[simp] theorem sendRequest_fresh (i : Instr) (count : Nat) (s : State) (h : s.waiting = none) :
    sendRequest i count s = { s with req := s.req ++ [count] } := by
  simp [sendRequest, h]

@[simp] theorem sendRequest_outstanding (i : Instr) (count : Nat) (s : State) (h : s.waiting = some i) :
    sendRequest i count s = s := by
  simp [sendRequest, h]

@[simp] theorem sendRequest_params (i : Instr) (count : Nat) (s : State) : (sendRequest i count s).params = s.params := by
  unfold sendRequest; split <;> rfl
@[simp] theorem sendRequest_enum (i : Instr) (count : Nat) (s : State) : (sendRequest i count s).enum = s.enum := by
  unfold sendRequest; split <;> rfl
@[simp] theorem sendRequest_waiting (i : Instr) (count : Nat) (s : State) : (sendRequest i count s).waiting = s.waiting := by
  unfold sendRequest; split <;> rfl
@[simp] theorem sendRequest_host (i : Instr) (count : Nat) (s : State) : (sendRequest i count s).host = s.host := by
  unfold sendRequest; split <;> rfl
@[simp] theorem sendRequest_ent (i : Instr) (count : Nat) (s : State) : (sendRequest i count s).ent = s.ent := by
  unfold sendRequest; split <;> rfl
@[simp] theorem sendRequest_rsp (i : Instr) (count : Nat) (s : State) : (sendRequest i count s).rsp = s.rsp := by
  unfold sendRequest; split <;> rfl
@[simp] theorem sendRequest_freeCtr (i : Instr) (count : Nat) (s : State) : (sendRequest i count s).freeCtr = s.freeCtr := by
  unfold sendRequest; split <;> rfl

/-! ## The registers of the positions -/

@[simp] theorem Enumerator.idle_st : (Enumerator.idle).st = .idle := rfl
@[simp] theorem Enumerator.idle_ew : (Enumerator.idle).ew = 0 := rfl
@[simp] theorem Enumerator.idle_ep : (Enumerator.idle).ep = .even := rfl
@[simp] theorem Enumerator.idle_ph : (Enumerator.idle).ph = 0 := rfl
@[simp] theorem Enumerator.idle_bi : (Enumerator.idle).bi = 0#1 := rfl
@[simp] theorem Enumerator.exhausted_st : (Enumerator.exhausted).st = .exhausted := rfl
@[simp] theorem Enumerator.exhausted_ew : (Enumerator.exhausted).ew = 0 := rfl
@[simp] theorem Enumerator.exhausted_ep : (Enumerator.exhausted).ep = .even := rfl
@[simp] theorem Enumerator.exhausted_ph : (Enumerator.exhausted).ph = 0 := rfl
@[simp] theorem Enumerator.exhausted_bi : (Enumerator.exhausted).bi = 0#1 := rfl
@[simp] theorem Enumerator.first_st (w : Nat) (p : Parity) : (Enumerator.first w p).st = .active := rfl
@[simp] theorem Enumerator.first_ew (w : Nat) (p : Parity) : (Enumerator.first w p).ew = w := rfl
@[simp] theorem Enumerator.first_ep (w : Nat) (p : Parity) : (Enumerator.first w p).ep = p := rfl
@[simp] theorem Enumerator.first_ph (w : Nat) (p : Parity) : (Enumerator.first w p).ph = 0 := rfl
@[simp] theorem Enumerator.first_bi (w : Nat) (p : Parity) : (Enumerator.first w p).bi = 0#1 := rfl

end Sys2Proof.Machine
end

