-- ==== Sys2Proof/Laws/Ops.lean ====
section
/-!
SUPPORT. For each shared operation, one lemma that says once everything it can do; and the inversion of a command and of a step.
-/

namespace Sys2Proof.Machine

/-! ## Argument checks -/

theorem exceeds_bounded {p : Params} {m : Nat} (h : p.wMax = some m) (a : Int) :
    exceeds p a = decide ((m : Int) < a) := by
  simp [exceeds, h]

theorem exceeds_unbounded {p : Params} (h : p.wMax = none) (a : Int) : exceeds p a = false := by
  simp [exceeds, h]

theorem not_exceeds_bounded {p : Params} {m n : Nat} (h : p.wMax = some m) (hn : exceeds p n = false) : n ≤ m := by
  rw [exceeds_bounded h] at hn
  simpa using hn

/-! ## The Enumerator's operations -/

/-- Only the row of `(0, ODD)` is empty (40_enumerator R105). -/
theorem romLen_base (w : Nat) (p : Parity) : romLen (baseWidthOf w) p = 0 ↔ w = 0 ∧ p = .odd := by
  obtain rfl | rfl | h := show w = 0 ∨ w = 1 ∨ 2 ≤ w by omega
  · cases p <;> decide
  · cases p <;> decide
  · rw [baseWidthOf, Nat.min_eq_right h]
    have h0 : w ≠ 0 := by omega
    cases p <;> simp [h0] <;> decide

/-- `S` after an accepted start. -/
theorem Enumerator.start_cases (w : Nat) (p : Parity) :
    (w = 0 ∧ p = .odd ∧ Enumerator.start w p = Enumerator.exhausted) ∨
    (¬ (w = 0 ∧ p = .odd) ∧ Enumerator.start w p = Enumerator.first w p) := by
  unfold Enumerator.start
  by_cases h : romLen (baseWidthOf w) p = 0
  · rw [if_pos h]
    exact .inl ⟨((romLen_base w p).1 h).1, ((romLen_base w p).1 h).2, rfl⟩
  · rw [if_neg h]
    exact .inr ⟨fun h' => h ((romLen_base w p).2 h'), rfl⟩

/-- Everything a start can do (40_enumerator R105, 60_exceptions R163, R165). -/
theorem startSequence_cases (w : Int) (p : Parity) (s : State) :
    (w < 0 ∧ startSequence w p s = raise .invalidArgument s) ∨
    (0 ≤ w ∧ exceeds s.params w = true ∧ startSequence w p s = raise .range s) ∨
    (0 ≤ w ∧ exceeds s.params w = false ∧
      startSequence w p s = respond .ok 0 0 { s with enum := Enumerator.start w.toNat p }) := by
  unfold startSequence
  by_cases h : w < 0
  · exact .inl ⟨h, if_pos h⟩
  · rw [if_neg h]
    cases hx : exceeds s.params w
    · exact .inr (.inr ⟨by omega, rfl, by simp⟩)
    · exact .inr (.inl ⟨by omega, rfl, by simp⟩)

/-- Everything a pull can do (40_enumerator R108). -/
theorem pullElement_cases (s : State) :
    (s.enum.st = .idle ∧ pullElement s = raise .noSequence s) ∨
    (s.enum.st = .exhausted ∧ pullElement s = respond .endOfSequence 0 0 s) ∨
    (s.enum.st = .active ∧ pullElement s = respond .data s.enum.cur 0 { s with enum := s.enum.advance }) := by
  unfold pullElement
  cases s.enum.st <;> simp

/-! ## The draw -/

/-- Everything a draw can do (41_sampler R132, 60_exceptions R168, 70_reset R208). -/
theorem sample_cases (i : Instr) (n : Nat) (want : Parity) (zd : Bool) (s : State) :
    (s.ent = [] ∧ sample i n want zd s = { sendRequest i (drawCount n) s with waiting := some i }) ∨
    (∃ e rest, s.ent = .fail e :: rest ∧ sample i n want zd s =
      raise (.entropySourceFailure (e % 2 ^ s.params.ecw)) { sendRequest i (drawCount n) s with ent := rest }) ∨
    (∃ d rest, s.ent = .bytes d :: rest ∧ sample i n want zd s =
      respond .data (correct want zd (forceLength n (assembleRaw (dataBytes (drawCount n) d)))) 0
        { sendRequest i (drawCount n) s with ent := rest }) := by
  unfold sample
  match h : s.ent with
  | [] => exact .inl ⟨rfl, rfl⟩
  | .fail e :: rest => exact .inr (.inl ⟨e, rest, rfl, rfl⟩)
  | .bytes d :: rest => exact .inr (.inr ⟨d, rest, rfl, rfl⟩)

/-! ## The commands -/

@[simp] theorem exec_aev (w : Int) (s : State) : exec (.aev w) s = .next (startSequence w .even s) := rfl
@[simp] theorem exec_aod (w : Int) (s : State) : exec (.aod w) s = .next (startSequence w .odd s) := rfl
@[simp] theorem exec_nxt (s : State) : exec .nxt s = .next (pullElement s) := rfl
@[simp] theorem exec_stp (s : State) : exec .stp s = .next (closeSequence s) := rfl

/-- Everything `REV` can do (41_sampler R138). -/
theorem execRev_cases (n : Int) (az : Bool) (s : State) :
    (n < 0 ∧ exec (.rev n az) s = .next (raise .invalidArgument s)) ∨
    (0 ≤ n ∧ exceeds s.params n = true ∧ exec (.rev n az) s = .next (raise .range s)) ∨
    (n = 0 ∧ exceeds s.params n = false ∧ exec (.rev n az) s = .next (respond .data (if az then 3 else 0) 0 s)) ∨
    (1 ≤ n ∧ exceeds s.params n = false ∧
      exec (.rev n az) s = .next (sample (.rev n az) n.toNat .even (revZeroDisallowed s.params az) s)) := by
  simp only [exec, execRev]
  by_cases h : n < 0
  · exact .inl ⟨h, by rw [if_pos h]⟩
  · rw [if_neg h]
    cases hx : exceeds s.params n
    · by_cases h0 : n = 0
      · exact .inr (.inr (.inl ⟨h0, rfl, by simp [h0]⟩))
      · exact .inr (.inr (.inr ⟨by omega, rfl, by simp [h0]⟩))
    · exact .inr (.inl ⟨by omega, rfl, by simp⟩)

/-- Everything `ROD` can do (41_sampler R139). -/
theorem execRod_cases (n : Int) (s : State) :
    (n ≤ 0 ∧ exec (.rod n) s = .next (raise .invalidArgument s)) ∨
    (1 ≤ n ∧ exceeds s.params n = true ∧ exec (.rod n) s = .next (raise .range s)) ∨
    (1 ≤ n ∧ exceeds s.params n = false ∧
      exec (.rod n) s = .next (sample (.rod n) n.toNat .odd rodZeroDisallowed s)) := by
  simp only [exec, execRod]
  by_cases h : n < 0
  · exact .inl ⟨by omega, by rw [if_pos h]⟩
  · rw [if_neg h]
    by_cases h0 : n = 0
    · exact .inl ⟨by omega, by rw [if_pos h0]⟩
    · rw [if_neg h0]
      cases hx : exceeds s.params n
      · exact .inr (.inr ⟨by omega, rfl, by simp⟩)
      · exact .inr (.inl ⟨by omega, rfl, by simp⟩)

/-- Everything a command can do: it is answered with the entropy channel as it was, or it is an accepted Sampler command that
draws. -/
theorem exec_cases (i : Instr) (s : State) :
    (∃ st pat e, exec i s = .next (respond st pat 0 { s with enum := e })) ∨
    (∃ n : Nat, 1 ≤ n ∧ exceeds s.params n = false ∧
      ((∃ az, i = .rev n az ∧ exec i s = .next (sample i n .even (revZeroDisallowed s.params az) s)) ∨
        (i = .rod n ∧ exec i s = .next (sample i n .odd rodZeroDisallowed s)))) := by
  have hr : ∀ err, errorCode err = 0 → raise err s = respond (errorStatus err) 0 0 { s with enum := s.enum } := by
    intro err he; rw [raise, he]
  cases i with
  | aev w =>
    obtain ⟨_, h⟩ | ⟨_, _, h⟩ | ⟨_, _, h⟩ := startSequence_cases w .even s <;> rw [exec_aev, h]
    · exact .inl ⟨_, _, _, by rw [hr _ rfl]⟩
    · exact .inl ⟨_, _, _, by rw [hr _ rfl]⟩
    · exact .inl ⟨_, _, _, rfl⟩
  | aod w =>
    obtain ⟨_, h⟩ | ⟨_, _, h⟩ | ⟨_, _, h⟩ := startSequence_cases w .odd s <;> rw [exec_aod, h]
    · exact .inl ⟨_, _, _, by rw [hr _ rfl]⟩
    · exact .inl ⟨_, _, _, by rw [hr _ rfl]⟩
    · exact .inl ⟨_, _, _, rfl⟩
  | nxt =>
    obtain ⟨_, h⟩ | ⟨_, h⟩ | ⟨_, h⟩ := pullElement_cases s <;> rw [exec_nxt, h]
    · exact .inl ⟨_, _, _, by rw [hr _ rfl]⟩
    · exact .inl ⟨_, _, s.enum, rfl⟩
    · exact .inl ⟨_, _, _, rfl⟩
  | stp => exact .inl ⟨.ok, 0, Enumerator.idle, rfl⟩
  | rev n az =>
    obtain ⟨_, h⟩ | ⟨_, _, h⟩ | ⟨_, _, h⟩ | ⟨h1, hx, h⟩ := execRev_cases n az s
    · exact .inl ⟨_, _, _, by rw [h, hr _ rfl]⟩
    · exact .inl ⟨_, _, _, by rw [h, hr _ rfl]⟩
    · exact .inl ⟨_, _, s.enum, h⟩
    · obtain ⟨k, rfl⟩ := Int.eq_ofNat_of_zero_le (show 0 ≤ n by omega)
      exact .inr ⟨k, by omega, hx, .inl ⟨az, rfl, h⟩⟩
  | rod n =>
    obtain ⟨_, h⟩ | ⟨_, _, h⟩ | ⟨h1, hx, h⟩ := execRod_cases n s
    · exact .inl ⟨_, _, _, by rw [h, hr _ rfl]⟩
    · exact .inl ⟨_, _, _, by rw [h, hr _ rfl]⟩
    · obtain ⟨k, rfl⟩ := Int.eq_ofNat_of_zero_le (show 0 ≤ n by omega)
      exact .inr ⟨k, by omega, hx, .inr ⟨rfl, h⟩⟩

/-! ## Reset and the step -/

/-- Everything a reset can do (70_reset R190). -/
theorem takeReset_cases (s : State) :
    (s.waiting = none ∧ takeReset s = { s with enum := Enumerator.idle }) ∨
    (∃ i, s.waiting = some i ∧ takeReset s =
      { s with enum := Enumerator.idle, waiting := none, ent := Config.streamAfterReset s.freeCtr,
               freeCtr := s.freeCtr + 1 }) := by
  unfold takeReset
  cases s.waiting <;> simp

/-- Everything a step can be. -/
theorem step_cases (s : State) :
    (∃ rest, s.host = .reset :: rest ∧ step s = .next (takeReset { s with host := rest })) ∨
    (∃ i, s.waiting = some i ∧ (∀ rest, s.host ≠ .reset :: rest) ∧ step s = exec i s) ∨
    (∃ cw rest i, s.waiting = none ∧ s.host = .command cw :: rest ∧ decode s.params cw = .ok i ∧
      step s = exec i { s with host := rest }) ∨
    (∃ cw rest err, s.waiting = none ∧ s.host = .command cw :: rest ∧ decode s.params cw = .error err ∧
      step s = .next (raise .illegal { s with host := rest })) ∨
    (s.waiting = none ∧ s.host = [] ∧ step s = .next s) := by
  unfold step nextAction
  match hh : s.host, hw : s.waiting with
  | .reset :: rest, _ => exact .inl ⟨rest, rfl, rfl⟩
  | [], none => exact .inr (.inr (.inr (.inr ⟨rfl, rfl, rfl⟩)))
  | [], some i => exact .inr (.inl ⟨i, rfl, by simp, rfl⟩)
  | .command cw :: rest, some i => exact .inr (.inl ⟨i, rfl, by simp, rfl⟩)
  | .command cw :: rest, none =>
    cases hd : decode s.params cw with
    | ok i => exact .inr (.inr (.inl ⟨cw, rest, i, rfl, rfl, hd, by simp [hd]⟩))
    | error err => exact .inr (.inr (.inr (.inl ⟨cw, rest, err, rfl, rfl, hd, by simp [hd]⟩)))

end Sys2Proof.Machine
end

