-- ==== Sys2Proof/Laws/PerInstr.lean ====
section
/-!
SUPPORT. What is proved command by command: the two fields of an encoded command word.
-/

/-- The fields of the encoded word: the control byte of the command, and above it the argument field (30_encoding R71). -/
def Sys2Proof.Laws.EncodeFields.Statement (i : Sys2Proof.Instr) : Prop :=
  ∀ p : Sys2Proof.Params, i.wellFormed p = true →
    Sys2Proof.encode p i % 256 = (i.control.toNat : Int) ∧ Sys2Proof.encode p i / 256 = p.argBits i.arg

namespace Sys2Proof.Laws

theorem encode_fields (p : Params) (i : Instr) :
    encode p i % 256 = (i.control.toNat : Int) ∧ encode p i / 256 = p.argBits i.arg := by
  have h := i.control.isLt
  unfold encode
  omega

theorem EncodeFields.aev (w : Int) : EncodeFields.Statement (.aev w) := fun p _ => encode_fields p _
theorem EncodeFields.aod (w : Int) : EncodeFields.Statement (.aod w) := fun p _ => encode_fields p _
theorem EncodeFields.rev (n : Int) (az : Bool) : EncodeFields.Statement (.rev n az) := fun p _ => encode_fields p _
theorem EncodeFields.rod (n : Int) : EncodeFields.Statement (.rod n) := fun p _ => encode_fields p _
theorem EncodeFields.nxt : EncodeFields.Statement .nxt := fun p _ => encode_fields p _
theorem EncodeFields.stp : EncodeFields.Statement .stp := fun p _ => encode_fields p _

end Sys2Proof.Laws
end

