-- ==== Sys2Proof/Machine/Assembler.lean ====
section
/-!
DEFINITION. The assembler's text (30_encoding R84): one line of characters, its comment, its mnemonic, its operands as decimal
or hexadecimal numerals; and the command word that the line encodes. What the rule leaves open of the text is in assumption
log 13.
-/

namespace Sys2Proof.Machine

/-- The line without its comment, which starts with `;`. -/
def dropComment (line : List Char) : List Char := line.takeWhile fun c => c != ';'

/-- A text without the spaces around it. -/
def trimSpaces (text : List Char) : List Char :=
  ((text.dropWhile fun c => c == ' ').reverse.dropWhile fun c => c == ' ').reverse

/-- The operands' texts, separated by commas. -/
def splitCommas : List Char → List (List Char)
  | [] => [[]]
  | c :: cs =>
    match splitCommas cs with
    | [] => [[]]
    | w :: ws => if c = ',' then [] :: w :: ws else (c :: w) :: ws

/-- The value of a digit, decimal or hexadecimal. -/
def digitValue (c : Char) : Option Nat :=
  if 48 ≤ c.toNat ∧ c.toNat ≤ 57 then some (c.toNat - 48)
  else if 65 ≤ c.toNat ∧ c.toNat ≤ 70 then some (c.toNat - 55)
  else if 97 ≤ c.toNat ∧ c.toNat ≤ 102 then some (c.toNat - 87)
  else none

/-- The digits read on, the value so far given. -/
def readDigits (base : Nat) : Nat → List Char → Option Nat
  | acc, [] => some acc
  | acc, c :: cs =>
    match digitValue c with
    | some d => if d < base then readDigits base (base * acc + d) cs else none
    | none => none

/-- At least one digit. -/
def readNatural (base : Nat) : List Char → Option Nat
  | [] => none
  | c :: cs => readDigits base 0 (c :: cs)

/-- A number: decimal with a leading `-` for negatives, or `0x` hexadecimal (30_encoding R84). -/
def readNumber : List Char → Option Int
  | '0' :: 'x' :: cs => (readNatural 16 cs).map Int.ofNat
  | '-' :: cs => (readNatural 10 cs).map fun n => -(n : Int)
  | cs => (readNatural 10 cs).map Int.ofNat

/-- Every operand read as a number. -/
def readOperands : List (List Char) → Option (List Int)
  | [] => some []
  | w :: ws =>
    match readNumber (trimSpaces w), readOperands ws with
    | some a, some as => some (a :: as)
    | _, _ => none

/-- The command of a line of text; none where the line has none or is no line of R84 or R85. -/
def assembleText (line : List Char) : Option Instr :=
  let text := trimSpaces (dropComment line)
  let mnemonic := text.takeWhile fun c => c != ' '
  let rest := trimSpaces (text.dropWhile fun c => c != ' ')
  match if rest = [] then some [] else readOperands (splitCommas rest) with
  | some operands => assembleLine (String.ofList mnemonic) operands
  | none => none

/-- The command word of a line of text on the instance `p`; none where an operand has no place in the argument field
(30_encoding R84). -/
def assembleWord (p : Params) (line : List Char) : Option Int :=
  match assembleText line with
  | some i => if i.wellFormed p then some (encode p i) else none
  | none => none

end Sys2Proof.Machine
end

