-- ==== Sys2Proof/Tests/Slice0.lean ====
section
/-!
SUPPORT. The model's own tests. The expected results are those of 95_test_vectors (computed there from the rules, at the
parameters 64 / 32 / 8 / true), or hand calculation from the rule a comment names.
-/

namespace Sys2Proof.Tests

open Sys2Proof.Machine

/-! ## Small states -/

/-- An instance at the suggested parameters with `S` and the entropy answers given. -/
def stateWith (e : Enumerator) (ent : List EntropyAnswer) : State := { State.reset with enum := e, ent := ent }

/-- `ACTIVE / 4 / 0 / 01 / 1`, the state of 95_test_vectors section 2.7. -/
def open4 : Enumerator := ⟨.active, 4, .even, 1, 1#1⟩

/-- An instance of `W_MAX = 4`, `ARGW = 4`, `ECW = 3`, `STEP4_AZ_NATURAL = false`. -/
def small : Params := ⟨some 4, 4, 3, false⟩

/-- An instance of unbounded `W_MAX`. -/
def unbounded : Params := ⟨none, 1, 1, true⟩

/-- What a step leaves to look at: `S`, the last response, the requests, the command in progress. -/
def shown : Host.Outcome State Fault Refusal → Option (Enumerator × Option Response × List Nat × Option Instr)
  | .next t => some (t.enum, t.rsp.getLast?, t.req, t.waiting)
  | .fault _ => none
  | .refused _ => none

/-! ## Well-formedness: an argument outside the signed field has no encoding (30_encoding R73) -/

theorem test_wf_refuses_aev_too_large : (Instr.aev 2147483648).wellFormed Params.suggested = false := by decide
theorem test_wf_refuses_aod_too_small : (Instr.aod (-2147483649)).wellFormed Params.suggested = false := by decide
theorem test_wf_refuses_rev_too_large : (Instr.rev 8 true).wellFormed small = false := by decide
theorem test_wf_refuses_rod_too_small : (Instr.rod (-9)).wellFormed small = false := by decide
theorem test_wf_refuses_bad_parameters :
    ({ small with wMax := some 8 } : Params).wf = false ∧ ({ small with wMax := some 1 } : Params).wf = false ∧
    ({ small with ecw := 0 } : Params).wf = false := by decide

/-! ## Decoding: words written out from 30_encoding R76, and 95_test_vectors section 2.6 -/

theorem test_decode_aev : decodeTableWord 40 0b0000000000000000000000000000001100000000 = some (.aev 3) := by decide
theorem test_decode_aod : decodeTableWord 40 0b0000000000000000000000000000010100000001 = some (.aod 5) := by decide
theorem test_decode_rev : decodeTableWord 40 0b0000000000000000000000000000110000000010 = some (.rev 12 false) := by decide
theorem test_decode_rev_az : decodeTableWord 40 0xFFFFFFFB0A = some (.rev (-5) true) := by decide
theorem test_decode_rod : decodeTableWord 40 0b1111111111111111111111111111111100000011 = some (.rod (-1)) := by decide
theorem test_decode_nxt : decodeTableWord 40 0b0000000000000000000000000000000000000100 = some .nxt := by decide
theorem test_decode_stp : decodeTableWord 40 0b0000000000000000000000000000000000000101 = some .stp := by decide

theorem test_decode_argument_range :
    decodeTableWord 40 0xFFFFFFFF00 = some (.aev (-1)) ∧ decodeTableWord 40 0x7FFFFFFF01 = some (.aod 2147483647) ∧
    decodeTableWord 40 0x8000000000 = some (.aev (-2147483648)) ∧ decodeTableWord 40 0x0000000A0A = some (.rev 10 true) := by
  decide

theorem test_decode_illegal :
    [0x06, 0x07, 0x10, 0x80, 0x08, 0x09, 0x0B, 0x0C, 0x0D, 0x104, 0x105, 0xFFFFFFFF04, 0x308, 0xFFFFFFFF0B].map
      (decodeTableWord 40) = List.replicate 14 none := by decide

theorem test_decode_names_the_reason :
    decode small 0x10 = .error .reservedBits ∧ decode small 0x0E = .error .reservedOpcode ∧
    decode small 0x0B = .error .strayAllowZero ∧ decode small 0x104 = .error .strayArgument := ⟨rfl, rfl, rfl, rfl⟩

theorem test_encode :
    encode Params.suggested (.aev 3) = 0x0000000300 ∧ encode Params.suggested (.aod (-1)) = 0xFFFFFFFF01 ∧
    encode Params.suggested (.rev 5 true) = 0x000000050A ∧ encode Params.suggested (.rev 64 false) = 0x0000004002 ∧
    encode Params.suggested (.rod 12) = 0x0000000C03 ∧ encode Params.suggested .nxt = 0x04 ∧
    encode Params.suggested .stp = 0x05 := by decide

/-- 30_encoding R84, R85: `REV n` is `REV n, 0`. -/
theorem test_assemble :
    assembleLine "REV" [0] = some (.rev 0 false) ∧ assembleLine "REV" [5, 1] = some (.rev 5 true) ∧
    assembleLine "AEV" [-1] = some (.aev (-1)) ∧ assembleLine "REV" [5, 2] = none ∧ assembleLine "NXT" [1] = none := by
  decide

/-- 30_encoding R84: the texts `AOD -1`, `REV 0x5, 1  ; x`, `NXT` and, refused, `ROD 12` at `ARGW = 4` and `AEV` alone. -/
theorem test_assemble_text :
    assembleWord Params.suggested ['A', 'O', 'D', ' ', '-', '1'] = some 0xFFFFFFFF01 ∧
    assembleWord Params.suggested
      ['R', 'E', 'V', ' ', '0', 'x', '5', ',', ' ', '1', ' ', ';', ' ', 'x'] = some 0x000000050A ∧
    assembleWord Params.suggested ['N', 'X', 'T'] = some 0x04 ∧
    assembleWord small ['R', 'O', 'D', ' ', '1', '2'] = none ∧ assembleText ['A', 'E', 'V'] = none := by decide

/-! ## The response word (95_test_vectors section 2.5) -/

theorem test_response_word :
    responseWord Params.suggested ⟨.data, 3, 0⟩ = some 0x19 ∧ responseWord Params.suggested ⟨.errRange, 0, 0⟩ = some 5 ∧
    responseWord Params.suggested ⟨.errEntropy, 0, 0x2A⟩ = some 0x1500000000000000004 ∧
    responseWord Params.suggested ⟨.errEntropy, 0, 0xFF⟩ = some 0x7F80000000000000004 := by decide

theorem test_widths :
    commandWidth Params.suggested = some 40 ∧ responseWidth Params.suggested = some 75 ∧
    requestWidth Params.suggested = some 4 ∧ ewWidth Params.suggested = some 7 := by decide

/-! ## One step of each command -/

/-- P1, line 1: `AEV 3`. -/
theorem test_aev_opens : shown (exec (.aev 3) State.reset) =
    some (⟨.active, 3, .even, 0, 0#1⟩, some ⟨.ok, 0, 0⟩, [], none) := by decide

/-- Section 2.7: `AEV 65` leaves the open sequence. -/
theorem test_aev_above_limit : shown (exec (.aev 65) (stateWith open4 [])) =
    some (open4, some ⟨.errRange, 0, 0⟩, [], none) := by decide

/-- Section 2.3: `AOD 0` goes straight to `EXHAUSTED`. -/
theorem test_aod_zero_is_exhausted : shown (exec (.aod 0) (stateWith open4 [])) =
    some (⟨.exhausted, 0, .even, 0, 0#1⟩, some ⟨.ok, 0, 0⟩, [], none) := by decide

/-- Section 2.7: `AOD -1`. -/
theorem test_aod_negative : shown (exec (.aod (-1)) (stateWith open4 [])) =
    some (open4, some ⟨.errInvalidArgument, 0, 0⟩, [], none) := by decide

/-- P3, line 8: from `ACTIVE / 4 / 0 / 01 / 1` the pull yields 6 and carries into level 4. -/
theorem test_nxt_carries : shown (exec .nxt (stateWith open4 [])) =
    some (⟨.active, 4, .even, 2, 0#1⟩, some ⟨.data, 6, 0⟩, [], none) := by decide

/-- Section 2.2, step 16: the last element of `AOD 5`. -/
theorem test_nxt_last_element : shown (exec .nxt (stateWith ⟨.active, 5, .odd, 7, 1#1⟩ [])) =
    some (⟨.exhausted, 0, .even, 0, 0#1⟩, some ⟨.data, 31, 0⟩, [], none) := by decide

/-- P2, line 5. -/
theorem test_stp_closes : shown (exec .stp (stateWith open4 [])) =
    some (⟨.idle, 0, .even, 0, 0#1⟩, some ⟨.ok, 0, 0⟩, [], none) := by decide

/-- Section 2.5, `REV 12, 0` with bytes `34 12`: the first byte drawn is least significant. -/
theorem test_rev_byte_order : shown (exec (.rev 12 false) (stateWith open4 [.bytes 0x1234])) =
    some (open4, some ⟨.data, 2338, 0⟩, [2], none) := by decide

/-- Section 2.5, `REV 5` with byte `07`: 3 with the flag clear, and 0 with it set. -/
theorem test_rev_fallback :
    shown (exec (.rev 5 false) (stateWith open4 [.bytes 7])) = some (open4, some ⟨.data, 3, 0⟩, [1], none) ∧
    shown (exec (.rev 5 true) (stateWith open4 [.bytes 7])) = some (open4, some ⟨.data, 0, 0⟩, [1], none) :=
  ⟨by decide, by decide⟩

/-- P3, line 6: `ROD 5` with byte `08`. -/
theorem test_rod_clears_lowest : shown (exec (.rod 5) (stateWith open4 [.bytes 8])) =
    some (open4, some ⟨.data, 16, 0⟩, [1], none) := by decide

/-- Section 2.5: `ROD 9` with `Fail(0x2A)` to the request `N = 2`. -/
theorem test_rod_draw_fails : shown (exec (.rod 9) (stateWith open4 [.fail 0x2A])) =
    some (open4, some ⟨.errEntropy, 0, 0x2A⟩, [2], none) := by decide

/-- Section 2.5, last rows: `ROD 64` and `REV 64, 0` with eight bytes `FF`. -/
theorem test_sampler_widest :
    shown (exec (.rod 64) (stateWith open4 [.bytes 0xFFFFFFFFFFFFFFFF])) =
      some (open4, some ⟨.data, 0xFFFFFFFFFFFFFFFE, 0⟩, [8], none) ∧
    shown (exec (.rev 64 false) (stateWith open4 [.bytes 0xFFFFFFFFFFFFFFFF])) =
      some (open4, some ⟨.data, 0xFFFFFFFFFFFFFFFF, 0⟩, [8], none) :=
  ⟨by decide, by decide⟩

/-- Section 2.7, last row: the word is checked before the argument. -/
theorem test_step_illegal_word : shown (step (State.reset.withFetchWord 40 0xFFFFFFFF0B)) =
    some (Enumerator.idle, some ⟨.errIllegal, 0, 0⟩, [], none) := by decide

/-- 70_reset R208: a draw that has no answer yet. -/
theorem test_step_draw_waits : shown (step (State.reset.withFetchWord 40 0x0000000903)) =
    some (Enumerator.idle, none, [2], some (.rod 9)) := by decide

/-! ## Witnesses: for each statement with hypotheses, values that meet them all -/

/-- A good active position, from conditions that can be decided. -/
theorem wf_of_active {p : Params} {e : Enumerator} (ha : e.st = .active) (hx : exceeds p e.ew = false)
    (hp : e.ph < 2 ^ (e.ew - 2)) (hi : e.bi.toNat < e.rowLen) (hn : ¬ (e.ew = 0 ∧ e.ep = .odd)) : e.wf p :=
  ⟨fun h => absurd ha h, fun _ => hx, fun _ j hj => by
    unfold Enumerator.phase
    rw [Nat.testBit_lt_two_pow (lt_of_lt_of_le hp (Nat.pow_le_pow_right (by omega) (by omega))), Bool.and_false],
    fun _ => hi, fun _ => hn⟩

theorem open4_wf : open4.wf Params.suggested := wf_of_active rfl rfl (by decide) (by decide) (by decide)

theorem witness_DecodeOfEncodeIsIdentity :
    Params.suggested.wf = true ∧ unbounded.wf = true ∧ small.wf = true ∧
    (Instr.aev (-2147483648)).wellFormed Params.suggested = true ∧ (Instr.aod 2147483647).wellFormed Params.suggested = true ∧
    (Instr.rev 7 true).wellFormed small = true ∧ (Instr.rod (-8)).wellFormed small = true ∧
    (Instr.aev (2 ^ 70)).wellFormed unbounded = true ∧ Instr.nxt.wellFormed small = true ∧
    Instr.stp.wellFormed small = true := by decide

theorem witness_EncodeOfDecodeIsIdentity :
    Params.suggested.wf = true ∧ decode Params.suggested 0x7FFFFFFF01 = .ok (.aod 2147483647) ∧
    decode Params.suggested 0x05 = .ok .stp := ⟨rfl, rfl, rfl⟩

theorem witness_ControlByteSelectsCommand :
    (0x8000000000 : Int) % 256 = 0x00 ∧ (0x7FFFFFFF01 : Int) % 256 = 0x01 ∧ (0x502 : Int) % 256 = 0x02 ∧
    (0x50A : Int) % 256 = 0x0A ∧ (-253 : Int) % 256 = 0x03 ∧
    ((0x04 : Int) % 256 = 0x04 ∧ argField Params.suggested 0x04 = 0) ∧
    ((0x05 : Int) % 256 = 0x05 ∧ argField unbounded 0x05 = 0) := by decide

theorem witness_ArgumentFieldIsTwosComplement :
    Params.suggested.wf = true ∧ Params.suggested.wMax = some 64 ∧ small.wf = true ∧ small.wMax = some 4 ∧
    argField small 0x7FF = 7 ∧ argField small 0x800 = -8 := by decide

/-- One word for each of the five ways to be illegal, with what comes after it on the channel. -/
theorem witness_IllegalWordAnsweredWithoutEffect :
    State.reset.waiting = none ∧
    (State.reset.withFetchWord 40 0x10).host = .command 0x10 :: [] ∧ (0x10 : Int) / 16 % 16 ≠ 0 ∧
    (State.reset.withFetchWord 40 6).host = .command 6 :: [] ∧ (6 : Int) % 8 = 6 ∧
    (State.reset.withFetchWord 40 7).host = .command 7 :: [] ∧ (7 : Int) % 8 = 7 ∧
    (State.reset.withFetchWord 40 0x0B).host = .command 0x0B :: [] ∧ ((0x0B : Int) / 8 % 2 = 1 ∧ (0x0B : Int) % 8 ≠ 2) ∧
    (State.reset.withFetchWord 40 0x104).host = .command 0x104 :: [] ∧
    (argField Params.suggested 0x104 ≠ 0 ∧ (0x104 : Int) % 8 = 4) ∧
    (State.reset.withFetchWord 40 0xFFFFFFFF05).host = .command 0xFFFFFFFF05 :: [] ∧
    (argField Params.suggested 0xFFFFFFFF05 ≠ 0 ∧ (0xFFFFFFFF05 : Int) % 8 = 5) := by decide

theorem witness_ResponseWordFields :
    Params.suggested.wMax = some 64 ∧ ResponseWf Params.suggested ⟨.data, 2 ^ 64 - 1, 0⟩ ∧
    ResponseWf Params.suggested ⟨.errEntropy, 0, 255⟩ := by
  refine ⟨rfl, ⟨fun m h => ?_, by decide, by decide, by decide⟩, ⟨fun m _ => Nat.two_pow_pos m, by decide, by decide, by decide⟩⟩
  cases h
  decide

theorem witness_StepRunsDecodedCommand :
    (State.reset.withFetchWord 40 0x300).waiting = none ∧
    (State.reset.withFetchWord 40 0x300).host = .command 0x300 :: [] ∧
    decode Params.suggested 0x300 = .ok (.aev 3) ∧ (Instr.aev 3).wellFormed Params.suggested = true := ⟨rfl, rfl, rfl, rfl⟩

theorem witness_NothingPresentedChangesNothing :
    (stateWith open4 []).waiting = none ∧ (stateWith open4 []).host = [] := by decide

/-- A `ROD 9` in progress, with a command word already presented. -/
def drawing : State := { stateWith open4 [] with waiting := some (.rod 9), req := [2], host := [.command 4] }

theorem witness_CommandInProgressHoldsTheChannel :
    drawing.waiting = some (.rod 9) ∧ (∀ rest, drawing.host ≠ .reset :: rest) ∧ step drawing = .next drawing :=
  ⟨rfl, fun _ h => by simp [drawing] at h, rfl⟩

theorem witness_ResetIsTotal :
    ({ drawing with host := [.reset, .command 4] } : State).host = .reset :: [.command 4] ∧
    ({ stateWith open4 [.fail 1] with host := [.reset] } : State).host = .reset :: [] ∧
    (stateWith open4 [.fail 1]).waiting = none := by decide

theorem witness_CommandsFrame : ∃ t, exec (.rod 5) (stateWith open4 [.bytes 8]) = .next t := ⟨_, rfl⟩

theorem witness_ErrorLeavesStateAsItWas :
    (∃ t, exec (.rod 5) (stateWith open4 [.fail 1]) = .next t ∧ t.rsp = [] ++ [⟨.errEntropy, 0, 1⟩]) ∧
    (∃ t, exec (.aev 65) (stateWith open4 [.fail 1]) = .next t ∧ t.rsp = [] ++ [⟨.errRange, 0, 0⟩]) ∧
    (∃ t, step ((stateWith open4 []).withFetchWord 40 6) = .next t ∧ t.rsp = [] ++ [⟨.errIllegal, 0, 0⟩]) ∧
    (∃ t, step { drawing with ent := [.fail 0x2A] } = .next t ∧ t.rsp = [] ++ [⟨.errEntropy, 0, 0x2A⟩]) ∧
    isError .errEntropy = true ∧ isError .errRange = true ∧ isError .errIllegal = true :=
  ⟨⟨_, rfl, rfl⟩, ⟨_, rfl, rfl⟩, ⟨_, rfl, rfl⟩, ⟨_, rfl, rfl⟩, rfl, rfl, rfl⟩

theorem witness_NegativeArgumentRefused :
    (-1 : Int) < 0 ∧ Instr.aev (-1) ∈ [Instr.aev (-1), Instr.aod (-1), Instr.rev (-1) true, Instr.rod (-1)] ∧
    Instr.rod (-1) ∈ [Instr.aev (-1), Instr.aod (-1), Instr.rev (-1) true, Instr.rod (-1)] := by decide

theorem witness_ArgumentAboveLimitRefused :
    Params.suggested.wMax = some 64 ∧ ((64 : Nat) : Int) < 65 ∧ unbounded.wMax = none ∧
    (∃ t, exec (.aev (2 ^ 70)) (State.resetWith unbounded) = .next t) ∧
    Instr.rod 65 ∈ [Instr.aev 65, Instr.aod 65, Instr.rev 65 true, Instr.rod 65] :=
  ⟨rfl, by decide, rfl, ⟨_, rfl⟩, by decide⟩

theorem witness_PullWithoutSequenceRefused : State.reset.enum.st = .idle := rfl

theorem witness_EntropyFailureReported :
    exceeds Params.suggested 1 = false ∧ exceeds Params.suggested 64 = false ∧ 255 < 2 ^ Params.suggested.ecw ∧
    (stateWith open4 [.fail 255]).ent = .fail 255 :: [] ∧ (stateWith open4 [.fail 255]).waiting = none ∧
    drawing.waiting = some (.rod 9) ∧ exceeds Params.suggested 9 = false ∧
    Instr.rod 9 ∈ [Instr.rev 9 true, Instr.rod 9] := by decide

theorem witness_WhatCannotFail :
    (stateWith open4 []).enum.st ≠ .idle ∧ (stateWith Enumerator.exhausted []).enum.st ≠ .idle ∧
    exceeds Params.suggested 0 = false ∧ exceeds Params.suggested 64 = false ∧
    (∃ t, exec (.rev 64 true) (stateWith open4 [.fail 7]) = .next t ∧ t.rsp = [] ++ [⟨.errEntropy, 0, 7⟩]) ∧
    (∃ t, exec (.rod 1) (stateWith open4 [.fail 7]) = .next t ∧ t.rsp = [] ++ [⟨.errEntropy, 0, 7⟩]) :=
  ⟨by decide, by decide, rfl, rfl, ⟨_, rfl, rfl⟩, ⟨_, rfl, rfl⟩⟩

theorem witness_StatusesOfEachCommand :
    (∃ t, exec (.aev 65) State.reset = .next t ∧ t.rsp = [] ++ [⟨.errRange, 0, 0⟩]) ∧
    (∃ t, exec (.aod 64) State.reset = .next t ∧ t.rsp = [] ++ [⟨.ok, 0, 0⟩]) ∧
    (∃ t, exec (.rev 0 true) State.reset = .next t ∧ t.rsp = [] ++ [⟨.data, 3, 0⟩]) ∧
    (∃ t, exec (.rod 0) State.reset = .next t ∧ t.rsp = [] ++ [⟨.errInvalidArgument, 0, 0⟩]) ∧
    (∃ t, exec .nxt State.reset = .next t ∧ t.rsp = [] ++ [⟨.errNoSeq, 0, 0⟩]) ∧
    (∃ t, exec .stp State.reset = .next t ∧ t.rsp = [] ++ [⟨.ok, 0, 0⟩]) :=
  ⟨⟨_, rfl, rfl⟩, ⟨_, rfl, rfl⟩, ⟨_, rfl, rfl⟩, ⟨_, rfl, rfl⟩, ⟨_, rfl, rfl⟩, ⟨_, rfl, rfl⟩⟩

/-- The widths 0 and `W_MAX` are accepted, and any width on an unbounded instance: the hypothesis of `AevOpensEvenSequence`,
`AodOpensOddSequence` and `DrainYieldsTheSequence` (its first clause). -/
theorem witness_AcceptedWidths :
    exceeds Params.suggested 0 = false ∧ exceeds Params.suggested 64 = false ∧ exceeds unbounded (2 ^ 70) = false := by decide

theorem witness_StartReplacesOrLeavesOpenSequence :
    ((0 : Int) ≤ 64 ∧ exceeds Params.suggested 64 = false) ∧ ((0 : Int) ≤ 0 ∧ exceeds Params.suggested 0 = false) ∧
    (-1 : Int) < 0 ∧ exceeds Params.suggested 65 = true := by decide

/-- The three cases of the advance: within the row, into a level's other half, past the last element. -/
theorem witness_AdvanceMovesThePosition :
    (⟨.active, 4, .even, 1, 0#1⟩ : Enumerator).bi.toNat + 1 < (⟨.active, 4, .even, 1, 0#1⟩ : Enumerator).rowLen ∧
    (¬ open4.bi.toNat + 1 < open4.rowLen ∧ 3 ≤ 4 ∧ 4 ≤ open4.ew ∧ open4.phase 4 = false ∧
      ∀ i, 3 ≤ i → i < 4 → open4.phase i = true) ∧
    (¬ (⟨.active, 1, .odd, 0, 0#1⟩ : Enumerator).bi.toNat + 1 < (⟨.active, 1, .odd, 0, 0#1⟩ : Enumerator).rowLen ∧
      ∀ i, 3 ≤ i → i ≤ (⟨.active, 1, .odd, 0, 0#1⟩ : Enumerator).ew →
        (⟨.active, 1, .odd, 0, 0#1⟩ : Enumerator).phase i = true) := by
  refine ⟨by decide, ⟨by decide, by decide, by decide, by decide, fun i h1 h2 => ?_⟩, by decide, fun i h1 h2 => ?_⟩
  · obtain rfl : i = 3 := by omega
    decide
  · exact absurd h2 (by simp only; omega)

theorem witness_NxtAnswersTheCurrentElement : (stateWith open4 []).enum.st = .active := rfl

/-- Before the last element, and at it. -/
theorem witness_NxtWalksTheSequence :
    (stateWith open4 []).enum.wf Params.suggested ∧ open4.st = .active ∧ open4.index + 1 < seqCount open4.ew open4.ep ∧
    (⟨.active, 0, .even, 0, 0#1⟩ : Enumerator).wf Params.suggested ∧
    (⟨.active, 0, .even, 0, 0#1⟩ : Enumerator).index + 1 = seqCount 0 .even ∧
    (⟨.active, 64, .odd, 2 ^ 62 - 1, 1#1⟩ : Enumerator).wf Params.suggested ∧
    (⟨.active, 64, .odd, 2 ^ 62 - 1, 1#1⟩ : Enumerator).index + 1 = seqCount 64 .odd :=
  ⟨open4_wf, rfl, by decide, wf_of_active rfl rfl (by decide) (by decide) (by decide), by decide,
    wf_of_active rfl rfl (by norm_num) (by rw [Enumerator.rowLen_two (by decide)]; decide) (by decide),
    by norm_num [Enumerator.index, seqCount]⟩

theorem witness_ExhaustedStaysExhausted :
    ((⟨.active, 1, .odd, 0, 0#1⟩ : Enumerator).wf Params.suggested ∧
      (⟨.active, 1, .odd, 0, 0#1⟩ : Enumerator).index + 1 = seqCount 1 .odd) ∧
    ((stateWith Enumerator.exhausted []).enum.st = .exhausted ∧ (stateWith Enumerator.exhausted []).waiting = none) ∧
    (∃ t, step ((stateWith Enumerator.exhausted []).withFetchWord 40 0x101) = .next t ∧ t.enum = ⟨.active, 1, .odd, 0, 0#1⟩) ∧
    (∃ t, step ((stateWith Enumerator.exhausted []).withFetchWord 40 0x005) = .next t ∧ t.enum = Enumerator.idle) :=
  ⟨⟨wf_of_active rfl rfl (by decide) (by decide) (by decide), by decide⟩, ⟨rfl, rfl⟩, ⟨_, rfl, rfl⟩, ⟨_, rfl, rfl⟩⟩

/-- For `CurrentElementClosedForm` and `CurrentElementRangeAndParity`. -/
theorem witness_CurrentElement :
    open4.wf Params.suggested ∧ open4.st = .active ∧ 1 ≤ open4.ew ∧
    (⟨.active, 1, .odd, 0, 0#1⟩ : Enumerator).wf Params.suggested ∧ open4.cur = 6 :=
  ⟨open4_wf, rfl, by decide, wf_of_active rfl rfl (by decide) (by decide) (by decide), by decide⟩

/-- P1 and 40_enumerator R119: a new stack of width 3, and the stack of the registers in the middle of level 4. -/
theorem test_frames :
    (FrameStack.create 3 .even).answers 6 = [some 0, some 3, some 5, some 6, none, none] ∧
    open4.frames = .frame 4 .even .same (.frame 3 .even .flipped (.base 2#2 .odd 1)) := by decide

/-- For the second clause of `DrainYieldsTheSequence`: before the last element, at it below width 3, and at it at width 3, where
the registers are exhausted one pull before the outermost frame. -/
theorem witness_DrainYieldsTheSequence :
    (open4.wf Params.suggested ∧ open4.st = .active ∧ open4.advance.st = .active) ∧
    ((⟨.active, 0, .even, 0, 0#1⟩ : Enumerator).wf Params.suggested ∧
      (⟨.active, 0, .even, 0, 0#1⟩ : Enumerator).advance.st ≠ .active) ∧
    ((⟨.active, 3, .odd, 1, 1#1⟩ : Enumerator).wf Params.suggested ∧
      (⟨.active, 3, .odd, 1, 1#1⟩ : Enumerator).advance.st ≠ .active ∧
      (⟨.active, 3, .odd, 1, 1#1⟩ : Enumerator).frames.pull = (some 7, .frame 3 .odd .flipped (.base 2#2 .even 2))) :=
  ⟨⟨open4_wf, rfl, by decide⟩, ⟨wf_of_active rfl rfl (by decide) (by decide) (by decide), by decide⟩,
    wf_of_active rfl rfl (by decide) (by decide) (by decide), by decide, by decide⟩

/-- For `SequenceCounts`, `SequenceClosedForm` and `SequencesPartitionTheRange`: the sequences of section 2.1. -/
theorem witness_Sequences :
    1 ≤ 1 ∧ seqOf 3 .even = [0, 3, 5, 6] ∧ seqOf 4 .odd = [1, 2, 4, 7, 8, 11, 13, 14] ∧ 0 ∈ seqOf 0 .even ∧
    15 ∈ seqOf 4 .even := by decide

theorem witness_PopcountCountsBits : 15 < 2 ^ 4 ∧ popcount 15 = 4 ∧ 0 < 2 ^ 0 := by decide

theorem witness_ClbClearsLowestSetBit :
    (Nat.testBit 24 3 = true ∧ ∀ i < 3, Nat.testBit 24 i = false) ∧ (Nat.testBit 1 0 = true ∧ ∀ i < 0, Nat.testBit 1 i = false) ∧
    1 ≤ 1 ∧ clb 17 = 16 ∧ clb 31 = 30 := by decide

theorem witness_LeadingOneFlipsParity : 1 ≤ 1 ∧ 0 < 2 ^ (1 - 1) ∧ 1 ≤ 4 ∧ 7 < 2 ^ (4 - 1) := by decide

theorem witness_ForcedLengthIsExact :
    (1 ≤ 1 ∧ [0xA5#8].length = (1 + 7) / 8) ∧ (1 ≤ 9 ∧ [0x80#8, 0x00#8].length = (9 + 7) / 8) ∧
    (1 ≤ 8 ∧ [0x7F#8].length = (8 + 7) / 8) ∧ forceLength 9 (assembleRaw [0x80#8, 0x00#8]) = 0x101 := by decide

/-- For `RevAnswersTheCorrectedDraw`, `RodAnswersTheCorrectedDraw`, `RodPostcondition` and `RevPostcondition` (both of its
cases). -/
theorem witness_AnsweredDraws :
    1 ≤ 1 ∧ exceeds Params.suggested 1 = false ∧ 1 ≤ 64 ∧ exceeds Params.suggested 64 = false ∧
    (stateWith open4 [.bytes 0xA5]).waiting = none ∧ (stateWith open4 [.bytes 0xA5]).ent = .bytes 0xA5 :: [] ∧
    forceLength 1 (0xA5 % 2 ^ (8 * ((1 + 7) / 8))) = 2 ^ (1 - 1) ∧
    forceLength 64 (0xA5 % 2 ^ (8 * ((64 + 7) / 8))) ≠ 2 ^ (64 - 1) := by decide

theorem witness_SamplerIgnoresTheEnumerator :
    Instr.rod 5 ∈ [Instr.rev 5 true, Instr.rod 5] ∧ (∃ t, exec (.rod 5) (stateWith open4 [.bytes 8]) = .next t) ∧
    (stateWith open4 [.bytes 8]).params = State.reset.params ∧
    (stateWith open4 [.bytes 8]).ent.head? = (stateWith Enumerator.idle [.bytes 8, .fail 3]).ent.head? :=
  ⟨by decide, ⟨_, rfl⟩, rfl, rfl⟩

/-- A command that draws, and two that do not. -/
theorem witness_DrawsAreMadeOnlyByAcceptedSamplerCommands :
    State.reset.waiting = none ∧ (∃ t, exec (.rod 64) State.reset = .next t) ∧
    (∃ n : Nat, 1 ≤ n ∧ exceeds Params.suggested n = false ∧ (Instr.rod 64 = .rod n ∨ ∃ az, Instr.rod 64 = .rev n az)) ∧
    (∃ t, exec (.rev 0 true) State.reset = .next t) ∧
    ¬ (∃ n : Nat, 1 ≤ n ∧ exceeds Params.suggested n = false ∧ (Instr.rev 0 true = .rod n ∨ ∃ az, Instr.rev 0 true = .rev n az)) ∧
    ¬ (∃ n : Nat, 1 ≤ n ∧ exceeds Params.suggested n = false ∧ (Instr.nxt = .rod n ∨ ∃ az, Instr.nxt = .rev n az)) := by
  refine ⟨rfl, ⟨_, rfl⟩, ⟨64, by decide, rfl, .inl rfl⟩, ⟨_, rfl⟩, ?_, ?_⟩
  · rintro ⟨n, h1, _, h | ⟨az, h⟩⟩
    · cases h
    · injection h with h
      omega
  · rintro ⟨n, _, _, h | ⟨az, h⟩⟩ <;> cases h

theorem witness_UnansweredDrawWaits :
    1 ≤ 1 ∧ exceeds Params.suggested 1 = false ∧ exceeds Params.suggested 64 = false ∧ (stateWith open4 []).waiting = none ∧
    (stateWith open4 []).ent = [] ∧ (∀ rest, (stateWith open4 []).host ≠ .reset :: rest) :=
  ⟨by decide, rfl, rfl, rfl, rfl, fun _ h => by simp [stateWith, State.reset, State.resetWith] at h⟩

theorem witness_LateAnswerGivesTheSameState :
    (stateWith open4 []).waiting = none ∧ (stateWith open4 []).ent = [] ∧
    ∃ t, exec (.rev 9 true) (stateWith open4 []) = .next t ∧ t.waiting = some (.rev 9 true) :=
  ⟨rfl, rfl, _, rfl, rfl⟩

theorem witness_ZeroTestFiresOnlyOnTheForcedBit :
    (1 ≤ 1 ∧ 2 ^ (1 - 1) ≤ 1 ∧ 1 < 2 ^ 1) ∧ (1 ≤ 5 ∧ 2 ^ (5 - 1) ≤ 17 ∧ 17 < 2 ^ 5 ∧ mismatch .odd 17 = true) := by decide

/-- `17` and `18` and `20` and `24` come to `16` when odd is wanted (tz 4), and `30` has `31` beside itself. -/
theorem witness_CorrectionPreimages :
    (2 ^ (5 - 1) ≤ 16 ∧ 16 < 2 ^ 5 ∧ par 16 = .odd ∧ Nat.testBit 16 4 = true ∧ (∀ i < 4, Nat.testBit 16 i = false)) ∧
    (2 ^ (5 - 1) ≤ 30 ∧ 30 < 2 ^ 5 ∧ par 30 = .even ∧ Nat.testBit 30 1 = true ∧ (∀ i < 1, Nat.testBit 30 i = false)) ∧
    (2 ^ (5 - 1) ≤ 24 ∧ 24 < 2 ^ 5) ∧ correct .odd true 24 = 16 ∧
    (2 = 2 → Parity.odd = Parity.odd) ∧ (2 ^ (2 - 1) ≤ 2 ∧ 2 < 2 ^ 2 ∧ par 2 = .odd) := by decide

theorem witness_ResetMeetsTheInvariant : Params.suggested.wf = true ∧ small.wf = true ∧ unbounded.wf = true := by decide

/-- States in the middle of a sequence, with a draw outstanding and with any answers to come, meet the invariant. -/
theorem drawing_inv (ent : List EntropyAnswer) : ({ drawing with ent := ent } : State).Inv := by
  refine ⟨rfl, open4_wf, fun i h => ?_, fun r h => by simp [drawing, stateWith, State.reset, State.resetWith] at h,
    fun k h => ?_⟩
  · cases h
    exact ⟨9, by decide, rfl, .inl rfl, rfl⟩
  · have hk : k = 2 := by simpa [drawing] using h
    subst hk
    exact ⟨by decide, fun k hk => by cases hk; decide⟩

theorem witness_StepKeepsTheInvariant :
    ({ drawing with ent := [.bytes 0x8000] } : State).Inv ∧
    ∃ t, step { drawing with ent := [.bytes 0x8000] } = .next t ∧ t.rsp = [⟨.data, 256, 0⟩] ∧ t.waiting = none :=
  ⟨drawing_inv _, _, rfl, rfl, rfl⟩

/-- An instance with bounded widths. -/
theorem witness_ContentsFitTheirWidths :
    drawing.Inv ∧ ewWidth drawing.params = some 7 ∧ drawing.params.wMax = some 64 ∧ requestWidth drawing.params = some 4 ∧
    2 ∈ drawing.req ∧ responseWidth drawing.params = some 75 :=
  ⟨drawing_inv [], by decide, rfl, by decide, by decide, by decide⟩

theorem witness_OnlyEnumeratorCommandsAndResetMoveS :
    (∃ t, step ((stateWith open4 []).withFetchWord 40 0x004) = .next t ∧ t.enum ≠ open4) ∧
    (∃ t, step { stateWith open4 [] with host := [.reset] } = .next t ∧ t.enum ≠ open4) :=
  ⟨⟨_, rfl, by decide⟩, ⟨_, rfl, by decide⟩⟩

end Sys2Proof.Tests
end

/-!
PROOFS. The statements about the bit functions of 00_scope: `popcount` (R13) and `clb` (R14). The shape behind R14 is a value
split at its lowest set bit, `v = 2^(t+1) * u + 2^t` (`lowest_split`), of which `clb` keeps the first summand (`clb_split`).
-/

namespace Sys2Proof.Machine

/-! ## popcount -/

/-- Counting the bits of a field is adding them up. -/
theorem bitCount_eq_sum (m v : Nat) : bitCount m v = ((List.range m).map fun i => v / 2 ^ i % 2).sum := by
  induction m with
  | zero => rfl
  | succ m ih => simp [bitCount, ih, List.range_succ, Nat.toNat_testBit]

@[simp] theorem popcount_zero : popcount 0 = 0 := rfl

/-- Low zero bits do not count. -/
@[simp] theorem popcount_two_pow_mul (t u : Nat) : popcount (2 ^ t * u) = popcount u := by
  induction t with
  | zero => simp
  | succ t ih =>
    have hdouble := popcount_two_mul_add (2 ^ t * u) 0 (by omega)
    rwa [Nat.add_zero, Nat.add_zero, ih, ← Nat.mul_assoc, ← Nat.pow_succ'] at hdouble

/-- Below a field of zero bits, the lowest set bit counts one. -/
theorem popcount_split (u t : Nat) : popcount (2 ^ (t + 1) * u + 2 ^ t) = popcount u + 1 :=
  calc popcount (2 ^ (t + 1) * u + 2 ^ t) = popcount (2 ^ t * (2 * u + 1)) := by congr 1; ring
    _ = popcount u + 1 := by rw [popcount_two_pow_mul, popcount_two_mul_add u 1 (by omega)]

@[simp] theorem popcount_two_pow (k : Nat) : popcount (2 ^ k) = 1 := by
  simpa using popcount_split 0 k

@[simp] theorem popcount_two_pow_sub_one (k : Nat) : popcount (2 ^ k - 1) = k := by
  induction k with
  | zero => rfl
  | succ k ih =>
    have hones : 2 ^ (k + 1) - 1 = 2 * (2 ^ k - 1) + 1 := by
      have := Nat.two_pow_pos k
      rw [Nat.pow_succ]; omega
    rw [hones, popcount_two_mul_add _ 1 (by omega), ih]

/-- Settles O41, from the count of a field taken as a sum and the count of a value with one more low bit. -/
theorem popcountCountsBits : Obligations.PopcountCountsBits := by
  refine ⟨fun m v hv => ?_, popcount_zero, popcount_two_pow, popcount_two_pow_sub_one⟩
  rw [popcount_eq_bitCount hv]
  exact ⟨bitCount_eq_sum m v, bitCount_le m v⟩

/-! ## clb -/

@[simp] theorem clb_zero : clb 0 = 0 := rfl

/-- The lowest set bit has its weight taken away. -/
theorem clb_eq_sub {v t : Nat} (ht : v.testBit t = true) (hlow : ∀ i < t, v.testBit i = false) : clb v = v - 2 ^ t := by
  rw [lowest_split ht hlow, clb_split, Nat.add_sub_cancel]

/-- The bits above the lowest set bit stay. -/
theorem clb_testBit_above {v t i : Nat} (ht : v.testBit t = true) (hlow : ∀ i < t, v.testBit i = false) (hi : t < i) :
    (clb v).testBit i = v.testBit i := by
  have hweight : 2 ^ t < 2 ^ (t + 1) := Nat.pow_lt_pow_succ (by omega)
  have habove : ¬ i < t + 1 := by omega
  rw [lowest_split ht hlow, clb_split, Nat.testBit_two_pow_mul_add _ hweight, if_neg habove, Nat.testBit_two_pow_mul]
  simp [show t + 1 ≤ i from hi]

/-- One set bit goes. -/
theorem popcount_clb {v : Nat} (hv : 1 ≤ v) : popcount (clb v) + 1 = popcount v := by
  obtain ⟨t, ht, hlow⟩ := exists_lowest hv
  rw [lowest_split ht hlow, clb_split, popcount_two_pow_mul, popcount_split]

theorem popcount_eq_zero_iff (v : Nat) : popcount v = 0 ↔ v = 0 := by
  refine ⟨fun hcount => ?_, fun hv => by rw [hv, popcount_zero]⟩
  by_contra hv
  have := popcount_clb (Nat.one_le_iff_ne_zero.2 hv)
  omega

theorem par_clb {v : Nat} (hv : 1 ≤ v) : par (clb v) = (par v).flip := by
  have hflip : par v = (par (clb v)).flip := par_succ (popcount_clb hv).symm
  rw [hflip]
  cases par (clb v) <;> rfl

/-- Clearing the lowest set bit leaves nothing exactly when it was the only one. -/
theorem clb_eq_zero_iff {v : Nat} (hv : 1 ≤ v) : clb v = 0 ↔ popcount v = 1 := by
  rw [← popcount_eq_zero_iff, ← popcount_clb hv]
  omega

/-- Settles O42, by splitting the value at its lowest set bit. -/
theorem clbClearsLowestSetBit : Obligations.ClbClearsLowestSetBit := by
  refine ⟨fun v t ht hlow => ?_, fun _ hv => clb_eq_zero_iff hv, clb_zero⟩
  have hv : 1 ≤ v := Nat.one_le_iff_ne_zero.2 fun h => by simp [h] at ht
  exact ⟨rfl, clb_eq_sub ht hlow, popcount_clb hv, par_clb hv, fun _ hi => clb_testBit_above ht hlow hi⟩

end Sys2Proof.Machine

/-!
PROOFS. The statements of 20_memory: the byte order of a draw (R57), and the contents (R52) and the organisation (R53, R61) of
the two base-case ROMs. The one fact of the ROMs' contents behind R53 is that no row holds an entry at index 1 without one at
index 0 (`row_valid_zero`).
-/

namespace Sys2Proof.Machine

/-! ## The byte order of a draw -/

/-- One more byte at the low end weighs nothing itself and raises every other byte by eight places. -/
theorem sum_bytes_cons (b : Byte) (bs : List Byte) :
    ((List.range (b :: bs).length).map fun k => ((b :: bs).getD k 0#8).toNat * 2 ^ (8 * k)).sum =
      b.toNat + 256 * ((List.range bs.length).map fun k => (bs.getD k 0#8).toNat * 2 ^ (8 * k)).sum := by
  have hweight : ∀ k c : Nat, c * 2 ^ (8 * (k + 1)) = 256 * (c * 2 ^ (8 * k)) := fun k c => by ring
  simp [List.range_succ_eq_map, Function.comp_def, hweight, List.sum_map_mul_left]

/-- Each byte has the weight of its place in the draw (20_memory R57). -/
theorem assembleRaw_eq_sum (b : List Byte) :
    assembleRaw b = ((List.range b.length).map fun k => (b.getD k 0#8).toNat * 2 ^ (8 * k)).sum := by
  induction b with
  | nil => rfl
  | cons b bs ih => rw [assembleRaw, sum_bytes_cons, ih]

/-- A byte below and `8N` bits above it make `8(N+1)` bits. -/
theorem assembleRaw_lt (b : List Byte) : assembleRaw b < 2 ^ (8 * b.length) := by
  induction b with
  | nil => simp [assembleRaw]
  | cons b bs ih =>
    have hbyte := b.isLt
    have hlength : 2 ^ (8 * (b :: bs).length) = 256 * 2 ^ (8 * bs.length) := by rw [List.length_cons]; ring
    rw [assembleRaw, hlength]
    omega

/-- Settles O44, by induction on the bytes, the first one drawn at the low end. -/
theorem drawnBytesLittleEndian : Obligations.DrawnBytesLittleEndian :=
  fun b => ⟨assembleRaw_eq_sum b, assembleRaw_lt b⟩

/-! ## The base-case ROMs -/

/-- Settles O39, by reading the six rows from the tables. -/
theorem romRows : Obligations.RomRows := by
  unfold Obligations.RomRows
  decide

/-- The index stands below the base width (20_memory R53). -/
theorem romAddr_toNat (bw : BitVec 2) (i : BitVec 1) : (romAddr bw i).toNat = 2 * bw.toNat + i.toNat := by
  rw [romAddr, BitVec.toNat_append, ← Nat.shiftLeft_add_eq_or_of_lt i.isLt, Nat.shiftLeft_eq, Nat.mul_comm]

/-- No row holds an entry at index 1 alone: the valid entries are the lowest indices (20_memory R53). -/
theorem row_valid_zero (bw : BitVec 2) (q : Parity) (h : (memRead (romOf q) (romAddr bw 1#1)).valid = true) :
    (memRead (romOf q) (romAddr bw 0#1)).valid = true := by
  cases q <;> revert bw <;> decide

/-- `ROM_LEN` counts the valid entries of the row (20_memory R53). -/
theorem romLen_eq_length_filter (bw : BitVec 2) (q : Parity) :
    romLen bw q = ([0#1, 1#1].filter fun i => (memRead (romOf q) (romAddr bw i)).valid).length := by
  unfold romLen
  cases h0 : (memRead (romOf q) (romAddr bw 0#1)).valid <;>
    cases h1 : (memRead (romOf q) (romAddr bw 1#1)).valid <;> simp [h0, h1]

/-- An index lies below the row's length exactly when its entry is valid: without an entry at index 1 only index 0 is in
question, and with one both are valid. -/
theorem lt_romLen_iff (bw : BitVec 2) (q : Parity) (i : BitVec 1) :
    i.toNat < romLen bw q ↔ (memRead (romOf q) (romAddr bw i)).valid = true := by
  unfold romLen
  cases h1 : (memRead (romOf q) (romAddr bw 1#1)).valid with
  | false =>
    have hbit := Bool.toNat_le (memRead (romOf q) (romAddr bw 0#1)).valid
    obtain rfl | rfl := bit_cases i
    · cases (memRead (romOf q) (romAddr bw 0#1)).valid <;> simp
    · simp [h1, hbit]
  | true =>
    have h0 := row_valid_zero bw q h1
    obtain rfl | rfl := bit_cases i <;> simp [h0, h1]

/-- A valid entry stands in the row at its own index. -/
theorem romRow_getElem? {bw : BitVec 2} {q : Parity} {i : BitVec 1}
    (h : (memRead (romOf q) (romAddr bw i)).valid = true) :
    (romRow bw q)[i.toNat]? = some (memRead (romOf q) (romAddr bw i)).val.toNat := by
  unfold romRow
  obtain rfl | rfl := bit_cases i
  · simp [h]
  · simp [h, row_valid_zero bw q h]

/-- Settles O40: the address from its two fields, the rows from `row_valid_zero`, the two tables by reading them. -/
theorem romOrganisation : Obligations.RomOrganisation :=
  ⟨romAddr_toNat, fun bw q => ⟨romLen_eq_length_filter bw q, fun i => ⟨lt_romLen_iff bw q i, romRow_getElem?⟩⟩,
    by decide, by decide⟩

end Sys2Proof.Machine

/-!
PROOFS. The statement of 30_encoding about illegal command words (R77). The decoder rejects a word exactly for one of the four
reasons of R77 (`decode_error_iff`); the fields it reads are remainders of the word (`rsvField_toNat` and its neighbours); and
a step on a word that does not decode is `raise`, which changes nothing but the responses (`step_of_decode_error`).
-/

namespace Sys2Proof

/-! ## The fields of a command word as numbers -/

theorem controlByte_toNat (cw : Int) : ((controlByte cw).toNat : Int) = cw % 256 := by
  rw [controlByte, BitVec.toNat_ofInt, Int.toNat_of_nonneg (Int.emod_nonneg _ (by decide))]
  rfl

theorem opField_toNat (cw : Int) : ((opField cw).toNat : Int) = cw % 8 := by
  have hbyte := controlByte_toNat cw
  rw [opField, BitVec.extractLsb'_toNat, Nat.shiftRight_zero]
  omega

theorem rsvField_toNat (cw : Int) : ((rsvField cw).toNat : Int) = cw / 16 % 16 := by
  have hbyte := controlByte_toNat cw
  rw [rsvField, BitVec.extractLsb'_toNat, Nat.shiftRight_eq_div_pow]
  omega

theorem azField_iff (cw : Int) : azField cw = true ↔ cw / 8 % 2 = 1 := by
  have hbyte := controlByte_toNat cw
  rw [azField, ← BitVec.testBit_toNat, Nat.testBit_eq_decide_div_mod_eq, decide_eq_true_iff]
  omega

theorem rsvField_eq_zero_iff (cw : Int) : rsvField cw = 0 ↔ cw / 16 % 16 = 0 := by
  rw [← BitVec.toNat_inj, ← Int.natCast_inj, rsvField_toNat]
  rfl

theorem opField_eq_iff (cw : Int) (op : BitVec 3) : opField cw = op ↔ cw % 8 = (op.toNat : Int) := by
  rw [← BitVec.toNat_inj, ← Int.natCast_inj, opField_toNat]

theorem six_le_opField_iff (cw : Int) : 6 ≤ (opField cw).toNat ↔ cw % 8 = 6 ∨ cw % 8 = 7 := by
  have hop := opField_toNat cw
  omega

/-! ## The illegal words -/

/-- The decoder rejects a word for the four reasons of 30_encoding R77 and for no other. -/
theorem decode_error_iff (p : Params) (cw : Int) :
    (∃ err, decode p cw = .error err) ↔
      rsvField cw ≠ 0 ∨ 6 ≤ (opField cw).toNat ∨ (azField cw = true ∧ opField cw ≠ 2) ∨
        ((opField cw = 4 ∨ opField cw = 5) ∧ argField p cw ≠ 0) := by
  unfold decode
  by_cases hrsv : rsvField cw ≠ 0
  · rw [if_pos hrsv]
    exact iff_of_true ⟨_, rfl⟩ (.inl hrsv)
  rw [if_neg hrsv]
  by_cases hop : 6 ≤ (opField cw).toNat
  · rw [if_pos hop]
    exact iff_of_true ⟨_, rfl⟩ (.inr (.inl hop))
  rw [if_neg hop]
  by_cases haz : azField cw = true ∧ opField cw ≠ 2
  · rw [if_pos haz]
    exact iff_of_true ⟨_, rfl⟩ (.inr (.inr (.inl haz)))
  rw [if_neg haz]
  by_cases harg : (opField cw = 4 ∨ opField cw = 5) ∧ argField p cw ≠ 0
  · rw [if_pos harg]
    exact iff_of_true ⟨_, rfl⟩ (.inr (.inr (.inr harg)))
  rw [if_neg harg]
  refine iff_of_false ?_ (by simp only [hrsv, hop, haz, harg, or_false, not_false_eq_true])
  rintro ⟨err, herr⟩
  split at herr <;> cases herr

end Sys2Proof

namespace Sys2Proof.Machine

/-- With no command in progress to end, reporting an error appends its response and changes nothing else. -/
theorem raise_of_not_waiting (err : CommandError) {s : State} (hw : s.waiting = none) :
    raise err s = { s with rsp := s.rsp ++ [⟨errorStatus err, 0, errorCode err⟩] } := by
  simp only [raise, respond, ← hw]

/-- Of the five things a step can be, a word that does not decode leaves the fourth. -/
theorem step_of_decode_error {s : State} {cw : Int} {rest : List HostInput} {err : DecodeError} (hw : s.waiting = none)
    (hh : s.host = .command cw :: rest) (hd : decode s.params cw = .error err) :
    step s = .next (raise .illegal { s with host := rest }) := by
  obtain ⟨_, hhost, _⟩ | ⟨_, hwait, _⟩ | ⟨_, _, _, _, hhost, hok, _⟩ | ⟨_, _, _, _, hhost, _, hstep⟩ | ⟨_, hhost, _⟩ :=
    step_cases s
  case inl => simp [hh] at hhost
  case inr.inl => simp [hw] at hwait
  case inr.inr.inl =>
    obtain ⟨rfl, rfl⟩ : cw = _ ∧ rest = _ := by simpa [hh] using hhost
    simp [hd] at hok
  case inr.inr.inr.inl =>
    obtain ⟨rfl, rfl⟩ : cw = _ ∧ rest = _ := by simpa [hh] using hhost
    exact hstep
  case inr.inr.inr.inr => simp [hh] at hhost

/-- Settles O6: each of the ways to be illegal is a reason for the decoder to reject, and the step on a rejected word is the
report of the error alone. -/
theorem illegalWordAnsweredWithoutEffect : Obligations.IllegalWordAnsweredWithoutEffect := by
  intro s cw rest hw hh hillegal
  obtain ⟨err, hd⟩ : ∃ err, decode s.params cw = .error err := by
    rw [decode_error_iff, Ne, rsvField_eq_zero_iff, six_le_opField_iff, azField_iff, Ne, opField_eq_iff, opField_eq_iff,
      opField_eq_iff]
    obtain hrsv | hop | hop | haz | ⟨harg, hop⟩ := hillegal
    · exact .inl hrsv
    · exact .inr (.inl (.inl hop))
    · exact .inr (.inl (.inr hop))
    · exact .inr (.inr (.inl haz))
    · exact .inr (.inr (.inr ⟨hop, harg⟩))
  rw [step_of_decode_error hw hh hd, raise_of_not_waiting _ (s := { s with host := rest }) hw]
  rfl

end Sys2Proof.Machine

/-!
PROOFS. The statements of 40_enumerator about a start (R106) and about the end of a sequence (R111). What a command can do to
the record `S` is said once (`exec_enum_cases`) and carried over to a step (`step_enum_cases`). At the last index every phase
bit stands and the base row is at its last entry, in every width (`Enumerator.ph_at_last`, `Enumerator.bi_at_last`), so the
advance finds no level left.
-/

namespace Sys2Proof.Machine

/-! ## A start -/

@[simp] theorem exec_startCommand (w : Int) (p : Parity) (s : State) :
    exec (startCommand w p) s = .next (startSequence w p s) := by
  cases p <;> rfl

/-- A refused start writes no register. -/
theorem startSequence_enum_of_refused {w : Int} {s : State} (h : w < 0 ∨ exceeds s.params w = true) (p : Parity) :
    (startSequence w p s).enum = s.enum := by
  obtain ⟨_, hstart⟩ | ⟨_, _, hstart⟩ | ⟨h0, hx, _⟩ := startSequence_cases w p s
  · rw [hstart, raise_enum]
  · rw [hstart, raise_enum]
  · simp [hx, not_lt.2 h0] at h

theorem startSequence_enum_of_accepted {w : Int} {s : State} (h0 : 0 ≤ w) (hx : exceeds s.params w = false) (p : Parity) :
    (startSequence w p s).enum = Enumerator.start w.toNat p := by
  simp [startSequence, not_lt.2 h0, hx]

/-- The answer to a start depends on the instance and the argument, not on the sequence that is open. -/
theorem startSequence_rsp_withEnum (w : Int) (p : Parity) (s : State) (e : Enumerator) :
    (startSequence w p { s with enum := e }).rsp = (startSequence w p s).rsp := by
  unfold startSequence
  by_cases hneg : w < 0
  · simp [hneg]
  · cases exceeds s.params w <;> simp [hneg]

theorem Enumerator.start_of_nonempty {w : Nat} {p : Parity} (h : ¬ (w = 0 ∧ p = .odd)) :
    Enumerator.start w p = Enumerator.first w p := by
  obtain ⟨hw, hp, _⟩ | ⟨_, hstart⟩ := Enumerator.start_cases w p
  · exact absurd ⟨hw, hp⟩ h
  · exact hstart

theorem Enumerator.start_zero_odd : Enumerator.start 0 .odd = Enumerator.exhausted := rfl

/-- Settles O26: the checks and the answer of a start do not look at `S`, and an accepted one writes all of it. -/
theorem startReplacesOrLeavesOpenSequence : Obligations.StartReplacesOrLeavesOpenSequence := by
  intro w p s e
  refine ⟨_, _, exec_startCommand w p s, exec_startCommand w p { s with enum := e }, startSequence_rsp_withEnum w p s e,
    fun h0 hx => ?_,
    fun h => ⟨startSequence_enum_of_refused h p, startSequence_enum_of_refused (s := { s with enum := e }) h p⟩⟩
  rw [startSequence_enum_of_accepted h0 hx, startSequence_enum_of_accepted (s := { s with enum := e }) h0 hx]
  refine ⟨rfl, fun hne => Enumerator.start_of_nonempty ?_, ?_⟩
  · rintro ⟨hw, hp⟩
    exact hne ⟨by omega, hp⟩
  · rintro ⟨rfl, rfl⟩
    exact Enumerator.start_zero_odd

/-! ## What moves S -/

/-- A draw reads and writes no register of `S` (41_sampler R131). -/
@[simp] theorem sample_enum (i : Instr) (n : Nat) (want : Parity) (zd : Bool) (s : State) :
    (sample i n want zd s).enum = s.enum := by
  obtain ⟨_, h⟩ | ⟨_, _, _, h⟩ | ⟨_, _, _, h⟩ := sample_cases i n want zd s <;> rw [h] <;> simp

/-- Everything a start can do to `S`. -/
theorem startCommand_enum_cases {w : Int} {p : Parity} {s t : State} (h : exec (startCommand w p) s = .next t) :
    t.enum = s.enum ∨ ∃ (n : Nat) (q : Parity), startCommand w p = startCommand n q ∧ t.enum = Enumerator.start n q := by
  obtain rfl : startSequence w p s = t := by simpa using h
  obtain ⟨hneg, _⟩ | ⟨_, hx, _⟩ | ⟨h0, hx, _⟩ := startSequence_cases w p s
  · exact .inl (startSequence_enum_of_refused (.inl hneg) p)
  · exact .inl (startSequence_enum_of_refused (.inr hx) p)
  · exact .inr ⟨w.toNat, p, by rw [Int.toNat_of_nonneg h0], startSequence_enum_of_accepted h0 hx p⟩

/-- Everything a command can do to `S`. -/
theorem exec_enum_cases {i : Instr} {s t : State} (h : exec i s = .next t) :
    t.enum = s.enum ∨ (i = .stp ∧ t.enum = Enumerator.idle) ∨
      (i = .nxt ∧ s.enum.st = .active ∧ t.enum = s.enum.advance) ∨
      ∃ (w : Nat) (p : Parity), i = startCommand w p ∧ t.enum = Enumerator.start w p := by
  cases i with
  | aev w => exact (startCommand_enum_cases (p := .even) h).imp_right fun hnew => .inr (.inr hnew)
  | aod w => exact (startCommand_enum_cases (p := .odd) h).imp_right fun hnew => .inr (.inr hnew)
  | rev n az =>
    left
    obtain ⟨_, hexec⟩ | ⟨_, _, hexec⟩ | ⟨_, _, hexec⟩ | ⟨_, _, hexec⟩ := execRev_cases n az s <;>
      cases hexec.symm.trans h <;> simp
  | rod n =>
    left
    obtain ⟨_, hexec⟩ | ⟨_, _, hexec⟩ | ⟨_, _, hexec⟩ := execRod_cases n s <;> cases hexec.symm.trans h <;> simp
  | nxt =>
    obtain rfl : pullElement s = t := by simpa using h
    obtain ⟨_, hpull⟩ | ⟨_, hpull⟩ | ⟨hactive, hpull⟩ := pullElement_cases s <;> rw [hpull]
    · exact .inl rfl
    · exact .inl rfl
    · exact .inr (.inr (.inl ⟨rfl, hactive, rfl⟩))
  | stp =>
    obtain rfl : closeSequence s = t := by simpa using h
    exact .inr (.inl ⟨rfl, rfl⟩)

/-- The command that a step runs: the one in progress, or the one that the word at the head of the channel decodes to. -/
def StepRuns (s : State) (i : Instr) : Prop :=
  (∃ cw rest, s.host = .command cw :: rest ∧ decode s.params cw = .ok i) ∨ s.waiting = some i

/-- A step that moves `S` is a reset, or runs a command that moves it. -/
theorem step_enum_cases {s t : State} (h : step s = .next t) :
    t.enum = s.enum ∨ (∃ rest, s.host = .reset :: rest) ∨
      ∃ i u, StepRuns s i ∧ u.enum = s.enum ∧ exec i u = .next t := by
  obtain ⟨rest, hhost, _⟩ | ⟨i, hwait, _, hstep⟩ | ⟨cw, rest, i, _, hhost, hdecode, hstep⟩ | ⟨_, rest, _, _, _, _, hstep⟩ |
    ⟨_, _, hstep⟩ := step_cases s
  · exact .inr (.inl ⟨rest, hhost⟩)
  · exact .inr (.inr ⟨i, s, .inr hwait, rfl, hstep.symm.trans h⟩)
  · exact .inr (.inr ⟨i, { s with host := rest }, .inl ⟨cw, rest, hhost, hdecode⟩, rfl, hstep.symm.trans h⟩)
  · cases hstep.symm.trans h
    exact .inl rfl
  · cases hstep.symm.trans h
    exact .inl rfl

/-! ## The last element -/

/-- Below width 2 a row holds at most one entry (20_memory R52). -/
theorem romLen_narrow {w : Nat} (hw : w < 2) (p : Parity) : romLen (baseWidthOf w) p ≤ 1 := by
  obtain rfl | rfl : w = 0 ∨ w = 1 := by omega
  all_goals cases p <;> decide

theorem seqCount_narrow {w : Nat} (hw : w < 2) (p : Parity) : seqCount w p ≤ 1 := by
  obtain rfl | rfl : w = 0 ∨ w = 1 := by omega
  all_goals cases p <;> decide

/-- From width 2 on there are two elements for each setting of the phases (40_enumerator R102). -/
theorem seqCount_wide {w : Nat} (hw : 2 ≤ w) (p : Parity) : seqCount w p = 2 * 2 ^ (w - 2) := by
  obtain ⟨n, rfl⟩ := Nat.exists_eq_add_of_le' hw
  rw [seqCount, Nat.pow_succ', Nat.add_sub_cancel]

/-- With every level in its flipped half there is no deepest level to move. -/
theorem Enumerator.deepestUnflipped_eq_none {e : Enumerator} (h : ∀ j, 3 ≤ j → j ≤ e.ew → e.phase j = true) :
    e.deepestUnflipped = none := by
  refine List.find?_eq_none.2 fun j hj => ?_
  rw [Enumerator.levels, List.mem_range'_1] at hj
  simp [h j hj.1 (by omega)]

/-- Every phase bit stands when the number of the phases is the greatest. -/
theorem Enumerator.phase_of_ph_full {e : Enumerator} (h : e.ph = 2 ^ (e.ew - 2) - 1) {j : Nat} (h3 : 3 ≤ j) (hj : j ≤ e.ew) :
    e.phase j = true := by
  have hbit : j - 3 < e.ew - 2 := by omega
  simp [Enumerator.phase, h, h3, Nat.testBit_two_pow_sub_one, hbit]

section LastElement

variable {p : Params} {e : Enumerator} (hwf : e.wf p) (hactive : e.st = .active)
  (hlast : e.index + 1 = seqCount e.ew e.ep)

include hwf hactive hlast

/-- At the last index every level is in its flipped half. -/
theorem Enumerator.ph_at_last : e.ph = 2 ^ (e.ew - 2) - 1 := by
  have hph := Enumerator.ph_lt hwf hactive
  rw [Enumerator.index] at hlast
  obtain hw | hw := Nat.lt_or_ge e.ew 2
  · have hcount := seqCount_narrow hw e.ep
    rw [show e.ew - 2 = 0 by omega]
    omega
  · have hbi := e.bi.isLt
    rw [seqCount_wide hw] at hlast
    omega

/-- At the last index the base row is at its last entry. -/
theorem Enumerator.bi_at_last : e.rowLen ≤ e.bi.toNat + 1 := by
  have hph := Enumerator.ph_at_last hwf hactive hlast
  obtain hw | hw := Nat.lt_or_ge e.ew 2
  · exact (romLen_narrow hw e.rowParity).trans (by omega)
  · have hpos := Nat.two_pow_pos (e.ew - 2)
    rw [Enumerator.index, seqCount_wide hw] at hlast
    rw [Enumerator.rowLen_two hw]
    omega

/-- After the last element the position is `EXHAUSTED` (40_enumerator R110, R111). -/
theorem Enumerator.advance_at_last : e.advance = Enumerator.exhausted := by
  have hrow := Enumerator.bi_at_last hwf hactive hlast
  have hlevels : e.deepestUnflipped = none :=
    Enumerator.deepestUnflipped_eq_none fun _ => Enumerator.phase_of_ph_full (Enumerator.ph_at_last hwf hactive hlast)
  rw [Enumerator.advance, if_neg (by omega), hlevels]

end LastElement

theorem pullElement_of_active {s : State} (h : s.enum.st = .active) :
    pullElement s = respond .data s.enum.cur 0 { s with enum := s.enum.advance } := by
  simp [pullElement, h]

/-! ## In EXHAUSTED -/

theorem pullElement_of_exhausted {s : State} (h : s.enum.st = .exhausted) (hw : s.waiting = none) :
    pullElement s = { s with rsp := s.rsp ++ [⟨.endOfSequence, 0, 0⟩] } := by
  simp [pullElement, h, respond, ← hw]

theorem pulls_succ (k : Nat) (s : State) : pulls (k + 1) s = pulls k (pullElement s) := rfl

/-- Every pull answers `END` and changes nothing else, any number of times. -/
theorem pulls_of_exhausted (k : Nat) {s : State} (h : s.enum.st = .exhausted) (hw : s.waiting = none) :
    pulls k s = .next { s with rsp := s.rsp ++ List.replicate k (⟨.endOfSequence, 0, 0⟩ : Response) } := by
  induction k generalizing s with
  | zero => simp [pulls]
  | succ k ih =>
    rw [pulls_succ, pullElement_of_exhausted h hw, ih, List.replicate_succ, List.append_assoc, List.singleton_append]
    · exact h
    · exact hw

/-- A command that moves `S` out of `EXHAUSTED` is `STP` or a start. -/
theorem exec_leaves_exhausted {i : Instr} {s t : State} (h : s.enum.st = .exhausted) (hexec : exec i s = .next t)
    (hne : t.enum ≠ s.enum) :
    (i = .stp ∧ t.enum.st = .idle) ∨
      ∃ w : Nat, (i = .aev w ∧ t.enum = ⟨.active, w, .even, 0, 0#1⟩) ∨
        (i = .aod w ∧ 1 ≤ w ∧ t.enum = ⟨.active, w, .odd, 0, 0#1⟩) ∨ (i = .aod 0 ∧ t.enum.st = .exhausted) := by
  obtain hsame | ⟨hi, hidle⟩ | ⟨_, hactive, _⟩ | ⟨w, p, hi, hstart⟩ := exec_enum_cases hexec
  · exact absurd hsame hne
  · exact .inl ⟨hi, by rw [hidle, Enumerator.idle_st]⟩
  · exact absurd (h.symm.trans hactive) (by decide)
  · refine .inr ⟨w, ?_⟩
    cases p with
    | even => exact .inl ⟨hi, hstart.trans (Enumerator.start_of_nonempty (by simp))⟩
    | odd =>
      obtain rfl | hw := Nat.eq_zero_or_pos w
      · exact .inr (.inr ⟨hi, by rw [hstart, Enumerator.start_zero_odd, Enumerator.exhausted_st]⟩)
      · exact .inr (.inl ⟨hi, hw, hstart.trans (Enumerator.start_of_nonempty fun hzero => by omega)⟩)

/-- Settles O30: the advance at the last index, the pulls by induction on their number, and the ways out from what a step can
do to `S`. -/
theorem exhaustedStaysExhausted : Obligations.ExhaustedStaysExhausted := by
  refine ⟨fun s hwf hactive hlast => ?_, fun k s h hw => pulls_of_exhausted k h hw, fun s t h hstep hne => ?_⟩
  · refine ⟨pullElement s, s.enum.cur, exec_nxt s, ?_⟩
    rw [pullElement_of_active hactive, Enumerator.advance_at_last hwf hactive hlast]
    exact ⟨rfl, rfl⟩
  · obtain hsame | hreset | ⟨i, u, hruns, hu, hexec⟩ := step_enum_cases hstep
    · exact absurd hsame hne
    · exact .inl hreset
    · exact .inr ⟨i, hruns, exec_leaves_exhausted (by rw [hu, h]) hexec (by rwa [hu])⟩

end Sys2Proof.Machine

/-!
PROOFS. The statements of 41_sampler: the forced length of a draw (R134) and the independence of the Sampler from the record `S`
(R131). Behind R131 stands that the command and the parameters alone settle what a Sampler command is: one fixed response, or a
draw of fixed parameters (`exec_sampler_uniform`).
-/

namespace Sys2Proof.Machine

/-! ## The forced length -/

/-- Bit `j` of the assembled draw is bit `j mod 8` of byte `j div 8` (20_memory R57). -/
theorem assembleRaw_testBit (b : List Byte) (j : Nat) :
    (assembleRaw b).testBit j = (b.getD (j / 8) 0#8).getLsbD (j % 8) := by
  induction b generalizing j with
  | nil => simp [assembleRaw]
  | cons x bs ih =>
    have hsplit : assembleRaw (x :: bs) = 2 ^ 8 * assembleRaw bs + x.toNat := Nat.add_comm _ _
    rw [hsplit, Nat.testBit_two_pow_mul_add _ x.isLt]
    by_cases hj : j < 8
    · rw [if_pos hj, Nat.div_eq_of_lt hj, Nat.mod_eq_of_lt hj]
      rfl
    · have hdiv : j / 8 = (j - 8) / 8 + 1 := by omega
      have hmod : j % 8 = (j - 8) % 8 := by omega
      rw [if_neg hj, ih, hdiv, hmod, List.getD_cons_succ]

/-- A value with its top bit at place `k` has `k + 1` significant bits. -/
theorem len_of_top_bit {v k : Nat} (hlow : 2 ^ k ≤ v) (hhigh : v < 2 ^ (k + 1)) : len v = k + 1 := by
  have hle : len v ≤ k + 1 := len_le_of_lt hhigh
  have hlt : k < len v := (Nat.pow_lt_pow_iff_right (by omega)).1 (hlow.trans_lt (lt_two_pow_len v))
  omega

section
variable {n raw : Nat} (hn : 1 ≤ n)
include hn

theorem forceLength_testBit_top : (forceLength n raw).testBit (n - 1) = true := by
  simp [forceLength_testBit n raw _ hn]

/-- Below the forced bit stand the draw's bits, moved down. -/
theorem forceLength_testBit_below {i : Nat} (hi : i + 2 ≤ n) :
    (forceLength n raw).testBit i = raw.testBit (i + (8 * drawCount n - n)) := by
  have hne : i ≠ n - 1 := by omega
  simp [forceLength_testBit n raw i hn, hne]

/-- The forced bit is the top bit of the draw's `8N`, so nothing stands above it. -/
theorem forceLength_lt (hraw : raw < 2 ^ (8 * drawCount n)) : forceLength n raw < 2 ^ n := by
  refine Nat.lt_pow_two_of_testBit _ fun i hi => ?_
  have hcount : n ≤ 8 * drawCount n := by unfold drawCount; omega
  have habove : raw.testBit (i + (8 * drawCount n - n)) = false :=
    Nat.testBit_lt_two_pow (hraw.trans_le (Nat.pow_le_pow_right (by omega) (by omega)))
  have hne : i ≠ n - 1 := by omega
  simp [forceLength_testBit n raw i hn, habove, hne]

end

/-- Settles O45, bit by bit: the forced bit stands at `n - 1`, nothing above it, the draw's bits below it. -/
theorem forcedLengthIsExact : Obligations.ForcedLengthIsExact := by
  intro n b hn hlength s raw v0
  have hcount : drawCount n = b.length := hlength.symm
  have htop : v0.testBit (n - 1) = true := forceLength_testBit_top hn
  have hlow : 2 ^ (n - 1) ≤ v0 := Nat.ge_two_pow_of_testBit htop
  have hhigh : v0 < 2 ^ n := forceLength_lt hn (hcount ▸ assembleRaw_lt b)
  have hpos : 1 ≤ v0 := (Nat.two_pow_pos (n - 1)).trans_le hlow
  have hpopcount : popcount v0 ≠ 0 := (popcount_eq_zero_iff v0).not.2 (by omega)
  have hlen : len v0 = n := by
    obtain ⟨k, rfl⟩ := Nat.exists_eq_add_of_le' hn
    exact len_of_top_bit hlow hhigh
  have hquot : v0 = (raw ||| 2 ^ (8 * b.length - 1)) / 2 ^ s := by
    rw [show v0 = forceLength n raw from rfl, forceLength, hcount, Nat.shiftRight_eq_div_pow]
  refine ⟨by omega, hquot, htop, hlow, by omega, hlen, hpos, by omega, fun i hi => ?_⟩
  have hbit : v0.testBit i = raw.testBit (i + s) := by
    simpa only [hcount] using forceLength_testBit_below (raw := raw) hn hi
  exact ⟨hbit, hbit.trans (assembleRaw_testBit b (i + s))⟩

/-! ## Independence from S -/

/-- A draw goes the same way whatever `S` holds. -/
theorem sample_withEnum (i : Instr) (n : Nat) (want : Parity) (zd : Bool) (s : State) (e : Enumerator) :
    sample i n want zd { s with enum := e } = { sample i n want zd s with enum := e } := by
  have hrequest : sendRequest i (drawCount n) { s with enum := e } = { sendRequest i (drawCount n) s with enum := e } := by
    unfold sendRequest
    by_cases hout : s.waiting = some i <;> simp [hout]
  unfold sample
  rw [hrequest]
  match s.ent with
  | [] => rfl
  | .fail _ :: _ => rfl
  | .bytes _ :: _ => rfl

/-- The responses of a draw, by the answer that comes: none while none is there, the source's code for a failure, the corrected
pattern for bytes (41_sampler R132 to R136, 60_exceptions R168). -/
def drawResponses (p : Params) (n : Nat) (want : Parity) (zd : Bool) : Option EntropyAnswer → List Response
  | none => []
  | some (.fail e) => [⟨.errEntropy, 0, e % 2 ^ p.ecw⟩]
  | some (.bytes d) => [⟨.data, correct want zd (forceLength n (assembleRaw (dataBytes (drawCount n) d))), 0⟩]

theorem sample_rsp (i : Instr) (n : Nat) (want : Parity) (zd : Bool) (s : State) :
    (sample i n want zd s).rsp = s.rsp ++ drawResponses s.params n want zd s.ent.head? := by
  obtain ⟨hent, h⟩ | ⟨_, _, hent, h⟩ | ⟨_, _, hent, h⟩ := sample_cases i n want zd s <;> rw [h, hent]
  · simp [drawResponses]
  · simp [drawResponses, errorStatus, errorCode]
  · simp [drawResponses]

/-- The command and the parameters settle what a Sampler command does: one fixed response, or a draw of fixed parameters. -/
theorem exec_sampler_uniform {n : Int} {az : Bool} {i : Instr} (hi : i ∈ [Instr.rev n az, Instr.rod n]) (p : Params) :
    (∃ st pat ecode, ∀ s : State, s.params = p → exec i s = .next (respond st pat ecode s)) ∨
    (∃ k want zd, ∀ s : State, s.params = p → exec i s = .next (sample i k want zd s)) := by
  obtain rfl | rfl : i = .rev n az ∨ i = .rod n := by simpa using hi
  · by_cases hneg : n < 0
    · exact .inl ⟨.errInvalidArgument, 0, 0, fun s _ => by rw [exec, execRev, if_pos hneg]; rfl⟩
    by_cases hlimit : exceeds p n = true
    · exact .inl ⟨.errRange, 0, 0, fun s hs => by rw [exec, execRev, if_neg hneg, hs, if_pos hlimit]; rfl⟩
    by_cases hzero : n = 0
    · exact .inl ⟨.data, if az then 3 else 0, 0, fun s hs => by
        rw [exec, execRev, if_neg hneg, hs, if_neg hlimit, if_pos hzero]⟩
    · exact .inr ⟨n.toNat, .even, revZeroDisallowed p az, fun s hs => by
        rw [exec, execRev, if_neg hneg, hs, if_neg hlimit, if_neg hzero]⟩
  · by_cases hneg : n < 0
    · exact .inl ⟨.errInvalidArgument, 0, 0, fun s _ => by rw [exec, execRod, if_pos hneg]; rfl⟩
    by_cases hzero : n = 0
    · exact .inl ⟨.errInvalidArgument, 0, 0, fun s _ => by rw [exec, execRod, if_neg hneg, if_pos hzero]; rfl⟩
    by_cases hlimit : exceeds p n = true
    · exact .inl ⟨.errRange, 0, 0, fun s hs => by
        rw [exec, execRod, if_neg hneg, if_neg hzero, hs, if_pos hlimit]; rfl⟩
    · exact .inr ⟨n.toNat, .odd, rodZeroDisallowed, fun s hs => by
        rw [exec, execRod, if_neg hneg, if_neg hzero, hs, if_neg hlimit]⟩

/-- Settles O49: a fixed response neither reads nor writes `S`, and neither does a draw. -/
theorem samplerIgnoresTheEnumerator : Obligations.SamplerIgnoresTheEnumerator := by
  refine ⟨fun n az s t e i hi hexec => ?_, fun n az s u i hi hparams hhead => ?_⟩
  · obtain ⟨st, pat, ecode, h⟩ | ⟨k, want, zd, h⟩ := exec_sampler_uniform hi s.params
    · obtain rfl : respond st pat ecode s = t := by simpa [h s rfl] using hexec
      exact ⟨rfl, h { s with enum := e } rfl⟩
    · obtain rfl : sample i k want zd s = t := by simpa [h s rfl] using hexec
      exact ⟨sample_enum i k want zd s, by rw [h { s with enum := e } rfl, sample_withEnum]⟩
  · obtain ⟨st, pat, ecode, h⟩ | ⟨k, want, zd, h⟩ := exec_sampler_uniform hi s.params
    · exact ⟨_, _, _, h s rfl, h u hparams.symm, rfl, rfl⟩
    · refine ⟨_, _, drawResponses s.params k want zd s.ent.head?, h s rfl, h u hparams.symm, sample_rsp .., ?_⟩
      rw [sample_rsp, hparams, hhead]

end Sys2Proof.Machine

/-!
PROOFS. The statements of 60_exceptions about the reports of errors (R161 to R169). What the four commands with an argument do is
said once for all of them (`argumentCommand_cases`). A command either reports an error, in one of two ways (`Reported`), or
sends no error response (`exec_reported_or_not`); what a report leaves of the state is then read from `raise` (`ErrorEffect`).
-/

namespace Sys2Proof.Machine

/-! ## The argument checks -/

/-- A limit is no negative number, so only a positive argument is above it. -/
theorem pos_of_exceeds {p : Params} {a : Int} (h : exceeds p a = true) : 0 < a := by
  cases hmax : p.wMax with
  | none => simp [exceeds_unbounded hmax] at h
  | some m =>
    rw [exceeds_bounded hmax, decide_eq_true_iff] at h
    omega

theorem exceeds_zero (p : Params) : exceeds p 0 = false :=
  Bool.eq_false_iff.2 fun h => absurd (pos_of_exceeds h) (by decide)

/-- What the argument checks make of the command `i` with argument `a`: one of the two refusals of 60_exceptions R163 to R165,
an answer that is no error, or a draw. -/
def ArgumentChecked (a : Int) (i : Instr) (s : State) : Prop :=
  ((a < 0 ∨ (a = 0 ∧ i = .rod a)) ∧ exec i s = .next (raise .invalidArgument s)) ∨
  (exceeds s.params a = true ∧ exec i s = .next (raise .range s)) ∨
  (0 ≤ a ∧ exceeds s.params a = false ∧
    ((∃ st pat e, isError st = false ∧ exec i s = .next (respond st pat 0 { s with enum := e })) ∨
      ∃ want zd, exec i s = .next (sample i a.toNat want zd s)))

theorem startCommand_argumentChecked (a : Int) (p : Parity) (s : State) : ArgumentChecked a (startCommand a p) s := by
  unfold ArgumentChecked
  rw [exec_startCommand]
  obtain ⟨hneg, h⟩ | ⟨_, hx, h⟩ | ⟨h0, hx, h⟩ := startSequence_cases a p s <;> rw [h]
  · exact .inl ⟨.inl hneg, rfl⟩
  · exact .inr (.inl ⟨hx, rfl⟩)
  · exact .inr (.inr ⟨h0, hx, .inl ⟨.ok, 0, _, rfl, rfl⟩⟩)

/-- Everything the four commands with an argument can do. -/
theorem argumentCommand_cases {a : Int} {az : Bool} {i : Instr}
    (hi : i ∈ [Instr.aev a, Instr.aod a, Instr.rev a az, Instr.rod a]) (s : State) : ArgumentChecked a i s := by
  obtain rfl | rfl | rfl | rfl : i = .aev a ∨ i = .aod a ∨ i = .rev a az ∨ i = .rod a := by simpa using hi
  · exact startCommand_argumentChecked a .even s
  · exact startCommand_argumentChecked a .odd s
  · obtain ⟨hneg, h⟩ | ⟨_, hx, h⟩ | ⟨h0, hx, h⟩ | ⟨h1, hx, h⟩ := execRev_cases a az s
    · exact .inl ⟨.inl hneg, h⟩
    · exact .inr (.inl ⟨hx, h⟩)
    · exact .inr (.inr ⟨h0.ge, hx, .inl ⟨.data, _, s.enum, rfl, h⟩⟩)
    · exact .inr (.inr ⟨by omega, hx, .inr ⟨_, _, h⟩⟩)
  · obtain ⟨h0, h⟩ | ⟨_, hx, h⟩ | ⟨h1, hx, h⟩ := execRod_cases a s
    · exact .inl ⟨h0.lt_or_eq.imp_right fun h0 => ⟨h0, rfl⟩, h⟩
    · exact .inr (.inl ⟨hx, h⟩)
    · exact .inr (.inr ⟨by omega, hx, .inr ⟨_, _, h⟩⟩)

/-! ## The response of a draw -/

/-- A draw that is answered returns a pattern, or has failed and returns the source's code. -/
theorem drawResponses_eq_singleton {p : Params} {n : Nat} {want : Parity} {zd : Bool} {answer : Option EntropyAnswer}
    {r : Response} (h : drawResponses p n want zd answer = [r]) :
    r.status = .data ∨ r.status = .errEntropy ∧ ∃ e, answer = some (.fail e) := by
  match answer with
  | none => simp [drawResponses] at h
  | some (.fail e) =>
    obtain rfl := List.singleton_inj.1 h
    exact .inr ⟨rfl, e, rfl⟩
  | some (.bytes d) =>
    obtain rfl := List.singleton_inj.1 h
    exact .inl rfl

theorem sample_response {i : Instr} {n : Nat} {want : Parity} {zd : Bool} {s : State} {r : Response}
    (h : (sample i n want zd s).rsp = s.rsp ++ [r]) :
    r.status = .data ∨ r.status = .errEntropy ∧ ∃ e, s.ent.head? = some (.fail e) :=
  drawResponses_eq_singleton (List.append_cancel_left ((sample_rsp ..).symm.trans h))

theorem sample_of_fail {s : State} {e : Nat} {rest : List EntropyAnswer} (h : s.ent = .fail e :: rest) (i : Instr) (n : Nat)
    (want : Parity) (zd : Bool) :
    sample i n want zd s =
      raise (.entropySourceFailure (e % 2 ^ s.params.ecw)) { sendRequest i (drawCount n) s with ent := rest } := by
  simp [sample, h]

/-! ## Reported errors -/

/-- `t` is `s` with an error reported: one that the block finds itself, in the state as it was, or the failure of a draw, whose
answer has been taken. -/
inductive Reported (s : State) : State → Prop where
  | refused (err : CommandError) (hown : ∀ e, err ≠ .entropySourceFailure e) : Reported s (raise err s)
  | failed (i : Instr) (count e : Nat) (rest : List EntropyAnswer) (hent : s.ent = .fail e :: rest) :
    Reported s (raise (.entropySourceFailure (e % 2 ^ s.params.ecw)) { sendRequest i count s with ent := rest })

/-- From `s` to `t` no error response has been sent. -/
def AnswersWithoutError (s t : State) : Prop :=
  ∀ r, t.rsp = s.rsp ++ [r] → isError r.status = false

theorem answersWithoutError_of_rsp_eq {s t : State} (h : t.rsp = s.rsp) : AnswersWithoutError s t :=
  fun r hr => by simp [h] at hr

theorem respond_answersWithoutError {st : Status} (hst : isError st = false) (pat ecode : Nat) {s u : State}
    (h : u.rsp = s.rsp) : AnswersWithoutError s (respond st pat ecode u) := by
  intro r hr
  obtain rfl : ⟨st, pat, ecode⟩ = r := by simpa [h] using hr
  exact hst

theorem sample_reported_or_not (i : Instr) (n : Nat) (want : Parity) (zd : Bool) (s : State) :
    Reported s (sample i n want zd s) ∨ AnswersWithoutError s (sample i n want zd s) := by
  obtain ⟨_, h⟩ | ⟨e, rest, hent, h⟩ | ⟨_, _, _, h⟩ := sample_cases i n want zd s <;> rw [h]
  · exact .inr (answersWithoutError_of_rsp_eq (sendRequest_rsp ..))
  · exact .inl (.failed i _ e rest hent)
  · exact .inr (respond_answersWithoutError rfl _ _ (sendRequest_rsp ..))

theorem argumentCommand_reported_or_not {a : Int} {az : Bool} {i : Instr}
    (hi : i ∈ [Instr.aev a, Instr.aod a, Instr.rev a az, Instr.rod a]) {s t : State} (hexec : exec i s = .next t) :
    Reported s t ∨ AnswersWithoutError s t := by
  obtain ⟨_, h⟩ | ⟨_, h⟩ | ⟨_, _, ⟨st, pat, e, hst, h⟩ | ⟨want, zd, h⟩⟩ := argumentCommand_cases hi s <;>
    cases h.symm.trans hexec
  · exact .inl (.refused .invalidArgument (by simp))
  · exact .inl (.refused .range (by simp))
  · exact .inr (respond_answersWithoutError hst pat 0 rfl)
  · exact sample_reported_or_not i _ want zd s

/-- A command reports an error in one of the two ways, or sends no error response. -/
theorem exec_reported_or_not {i : Instr} {s t : State} (hexec : exec i s = .next t) :
    Reported s t ∨ AnswersWithoutError s t := by
  cases i with
  | aev w => exact argumentCommand_reported_or_not (a := w) (az := false) (by simp) hexec
  | aod w => exact argumentCommand_reported_or_not (a := w) (az := false) (by simp) hexec
  | rev n az => exact argumentCommand_reported_or_not (a := n) (az := az) (by simp) hexec
  | rod n => exact argumentCommand_reported_or_not (a := n) (az := false) (by simp) hexec
  | nxt =>
    obtain rfl : pullElement s = t := by simpa using hexec
    obtain ⟨_, h⟩ | ⟨_, h⟩ | ⟨_, h⟩ := pullElement_cases s <;> rw [h]
    · exact .inl (.refused .noSequence (by simp))
    · exact .inr (respond_answersWithoutError rfl _ _ rfl)
    · exact .inr (respond_answersWithoutError rfl _ _ rfl)
  | stp =>
    obtain rfl : closeSequence s = t := by simpa using hexec
    exact .inr (respond_answersWithoutError rfl _ _ rfl)

/-- What an error response `r` says of the states before and after it (60_exceptions R161). -/
def ErrorEffect (s t : State) (r : Response) : Prop :=
  t.enum = s.enum ∧ t.waiting = none ∧ r.pat = 0 ∧
    (r.status ≠ .errEntropy → t.ent = s.ent ∧ t.req = s.req ∧ r.ecode = 0) ∧
    (r.status = .errEntropy → ∃ e, s.ent.head? = some (.fail e) ∧ t.ent = s.ent.tail ∧ r.ecode = e % 2 ^ s.params.ecw)

/-- Only the failure of a draw has a code and the status `ERR_ENTROPY`. -/
theorem errorStatus_errorCode_of_own {err : CommandError} (hown : ∀ e, err ≠ .entropySourceFailure e) :
    errorStatus err ≠ .errEntropy ∧ errorCode err = 0 := by
  cases err with
  | entropySourceFailure e => exact absurd rfl (hown e)
  | invalidArgument | range | illegal | noSequence => exact ⟨by decide, rfl⟩

theorem Reported.errorEffect {s t : State} {r : Response} (h : Reported s t) (hr : t.rsp = s.rsp ++ [r]) :
    ErrorEffect s t r := by
  cases h with
  | refused err hown =>
    obtain rfl : ⟨errorStatus err, 0, errorCode err⟩ = r := by simpa using hr
    obtain ⟨hstatus, hcode⟩ := errorStatus_errorCode_of_own hown
    exact ⟨rfl, rfl, rfl, fun _ => ⟨rfl, rfl, hcode⟩, fun h => absurd h hstatus⟩
  | failed i count e rest hent =>
    obtain rfl : ⟨.errEntropy, 0, e % 2 ^ s.params.ecw⟩ = r := by simpa [errorStatus, errorCode] using hr
    exact ⟨sendRequest_enum .., rfl, rfl, fun h => absurd rfl h, fun _ => ⟨e, by simp [hent], by simp [hent], rfl⟩⟩

theorem exec_errorEffect {i : Instr} {s t : State} {r : Response} (hexec : exec i s = .next t)
    (hr : t.rsp = s.rsp ++ [r]) (herr : isError r.status = true) : ErrorEffect s t r := by
  obtain h | h := exec_reported_or_not hexec
  · exact h.errorEffect hr
  · exact absurd herr (by simp [h r hr])

@[simp] theorem takeReset_rsp (s : State) : (takeReset s).rsp = s.rsp := by
  obtain ⟨_, h⟩ | ⟨_, _, h⟩ := takeReset_cases s <;> rw [h]

/-- Taking a word from the channel changes nothing that a report speaks of. -/
theorem step_errorEffect {s t : State} {r : Response} (hstep : step s = .next t) (hr : t.rsp = s.rsp ++ [r])
    (herr : isError r.status = true) : ErrorEffect s t r := by
  obtain ⟨rest, _, h⟩ | ⟨_, _, _, h⟩ | ⟨_, rest, _, _, _, _, h⟩ | ⟨_, rest, _, _, _, _, h⟩ | ⟨_, _, h⟩ :=
    step_cases s
  case inl =>
    cases h.symm.trans hstep
    simp at hr
  case inr.inl => exact exec_errorEffect (h.symm.trans hstep) hr herr
  case inr.inr.inl => exact exec_errorEffect (s := { s with host := rest }) (h.symm.trans hstep) hr herr
  case inr.inr.inr.inl =>
    cases h.symm.trans hstep
    exact (Reported.refused (s := { s with host := rest }) .illegal (by simp)).errorEffect hr
  case inr.inr.inr.inr =>
    cases h.symm.trans hstep
    simp at hr

/-- Settles O16: an error is reported in the state as it was, or after taking the one failed answer. -/
theorem errorLeavesStateAsItWas : Obligations.ErrorLeavesStateAsItWas :=
  ⟨fun _ _ _ _ => exec_errorEffect, fun _ _ _ => step_errorEffect⟩

/-! ## Refused arguments -/

/-- With an argument that is not above the limit no response is `ERR_RANGE`. -/
theorem argumentCommand_status_ne_errRange {a : Int} {az : Bool} {i : Instr}
    (hi : i ∈ [Instr.aev a, Instr.aod a, Instr.rev a az, Instr.rod a]) {s t : State} {r : Response}
    (hx : exceeds s.params a = false) (hexec : exec i s = .next t) (hr : t.rsp = s.rsp ++ [r]) : r.status ≠ .errRange := by
  obtain ⟨_, h⟩ | ⟨habove, _⟩ | ⟨_, _, ⟨st, pat, e, hst, h⟩ | ⟨want, zd, h⟩⟩ := argumentCommand_cases hi s
  · cases h.symm.trans hexec
    obtain rfl : ⟨.errInvalidArgument, 0, 0⟩ = r := by simpa [errorStatus, errorCode] using hr
    decide
  · simp [hx] at habove
  · cases h.symm.trans hexec
    have hnoError := respond_answersWithoutError hst pat 0 (s := s) rfl r hr
    intro hrange
    simp [hrange, isError, statusCode] at hnoError
  · cases h.symm.trans hexec
    obtain hdata | ⟨hfailed, _⟩ := sample_response hr
    · simp [hdata]
    · simp [hfailed]

/-- Settles O19: an argument above the limit is positive, so no other refusal comes before this one. -/
theorem argumentAboveLimitRefused : Obligations.ArgumentAboveLimitRefused := by
  intro a az s i hi
  refine ⟨fun m hmax hlt => ?_, fun hmax t hexec hr =>
    argumentCommand_status_ne_errRange hi (exceeds_unbounded hmax a) hexec hr rfl⟩
  have hx : exceeds s.params a = true := by rw [exceeds_bounded hmax, decide_eq_true_iff]; exact hlt
  obtain ⟨hlow, _⟩ | ⟨_, h⟩ | ⟨_, hin, _⟩ := argumentCommand_cases hi s
  · omega
  · exact h
  · simp [hx] at hin

/-- Settles O17: a negative argument is neither above the limit nor accepted. -/
theorem negativeArgumentRefused : Obligations.NegativeArgumentRefused := by
  intro a az s hneg i hi
  obtain ⟨_, h⟩ | ⟨hx, _⟩ | ⟨h0, _⟩ := argumentCommand_cases hi s
  · exact h
  · have := pos_of_exceeds hx
    omega
  · omega

/-- Settles O18: `ROD 0` is refused before the limit is looked at, and 0 is above no limit. -/
theorem unsatisfiableRequestRefused : Obligations.UnsatisfiableRequestRefused := by
  intro az s
  refine ⟨rfl, ⟨_, exec_aod 0 s, ?_, ?_⟩, ⟨respond .data (if az then 3 else 0) 0 s, _, ?_, rfl⟩⟩
  · simp [startSequence, exceeds_zero]
  · rw [startSequence_enum_of_accepted (Int.le_refl 0) (exceeds_zero _)]
    exact congrArg Enumerator.st Enumerator.start_zero_odd
  · simp [exec, execRev, exceeds_zero]

/-! ## Pulls and draws -/

/-- Settles O20, the first case of a pull. -/
theorem pullWithoutSequenceRefused : Obligations.PullWithoutSequenceRefused := by
  intro s hidle
  obtain ⟨_, h⟩ | ⟨hst, _⟩ | ⟨hst, _⟩ := pullElement_cases s
  · exact (exec_nxt s).trans (congrArg _ h)
  · simp [hidle] at hst
  · simp [hidle] at hst

/-- A Sampler command with an accepted bit length of 1 or more draws. -/
theorem exec_sampler_draws {n : Nat} {az : Bool} {i : Instr} (hi : i ∈ [Instr.rev n az, Instr.rod n]) (hn : 1 ≤ n)
    {s : State} (hx : exceeds s.params n = false) : ∃ want zd, exec i s = .next (sample i n want zd s) := by
  obtain rfl | rfl : i = .rev n az ∨ i = .rod n := by simpa using hi
  · obtain ⟨hneg, _⟩ | ⟨_, habove, _⟩ | ⟨hzero, _⟩ | ⟨_, _, h⟩ := execRev_cases n az s
    · omega
    · simp [hx] at habove
    · omega
    · exact ⟨_, _, h⟩
  · obtain ⟨hlow, _⟩ | ⟨_, habove, _⟩ | ⟨_, _, h⟩ := execRod_cases n s
    · omega
    · simp [hx] at habove
    · exact ⟨_, _, h⟩

/-- Settles O21: the draw's report, with the request sent now or the one already outstanding. -/
theorem entropyFailureReported : Obligations.EntropyFailureReported := by
  intro n e az s rest hn hx hent hcode i hi
  obtain ⟨want, zd, hdraw⟩ := exec_sampler_draws hi hn hx
  rw [hdraw, sample_of_fail hent, Nat.mod_eq_of_lt hcode]
  refine ⟨fun hw => ?_, fun hw => ?_⟩
  · rw [sendRequest_fresh _ _ _ hw, raise_of_not_waiting _ (s := { s with ent := rest, req := s.req ++ [drawCount n] }) hw]
    rfl
  · rw [sendRequest_outstanding _ _ _ hw]
    rfl

/-- An accepted Sampler command, but for `ROD 0`, is answered with an error only when its draw fails. -/
theorem sampler_error_of_accepted {n : Nat} {az : Bool} {i : Instr} (hi : i ∈ [Instr.rev n az, Instr.rod n])
    (hne : i ≠ .rod 0) {s t : State} {r : Response} (hx : exceeds s.params n = false) (hexec : exec i s = .next t)
    (hr : t.rsp = s.rsp ++ [r]) (herr : isError r.status = true) :
    r.status = .errEntropy ∧ ∃ e, s.ent.head? = some (.fail e) := by
  have harg : i ∈ [Instr.aev n, Instr.aod n, Instr.rev n az, Instr.rod n] :=
    List.mem_cons_of_mem _ (List.mem_cons_of_mem _ hi)
  obtain ⟨hneg | ⟨hzero, hrod⟩, _⟩ | ⟨habove, _⟩ | ⟨_, _, ⟨st, pat, e, hst, h⟩ | ⟨want, zd, h⟩⟩ :=
    argumentCommand_cases harg s
  · omega
  · exact absurd (hzero ▸ hrod) hne
  · simp [hx] at habove
  · cases h.symm.trans hexec
    simp [respond_answersWithoutError hst pat 0 (s := s) rfl r hr] at herr
  · cases h.symm.trans hexec
    obtain hdata | hfailed := sample_response hr
    · simp [hdata, isError, statusCode] at herr
    · exact hfailed

/-- Settles O22: the pulls by the value of `ST`, and the draws from what an accepted Sampler command can answer. -/
theorem whatCannotFail : Obligations.WhatCannotFail := by
  refine ⟨fun s hopen => ?_, fun s => ⟨_, _, exec_stp s, closeSequence_rsp s, rfl⟩, fun n az s t r hx => ?_,
    fun n s t r hn hx => ?_⟩
  · obtain ⟨hidle, _⟩ | ⟨_, h⟩ | ⟨_, h⟩ := pullElement_cases s
    · exact absurd hidle hopen
    · exact ⟨_, _, (exec_nxt s).trans (congrArg _ h), respond_rsp .., rfl⟩
    · exact ⟨_, _, (exec_nxt s).trans (congrArg _ h), respond_rsp .., rfl⟩
  · exact sampler_error_of_accepted (az := az) (by simp) (by simp) hx
  · exact sampler_error_of_accepted (az := false) (by simp) (by simp; omega) hx

end Sys2Proof.Machine

/-!
PROOFS. The statements of 30_encoding about command words that decode (R71 to R86) and about the response word (R80). A word
decodes to a command exactly when its control byte and its argument field are those of the command (`decode_eq_ok_iff`); the
argument field is the balanced remainder of what stands above the control byte (`argField_bounded`).
-/

namespace Sys2Proof

/-! ## The argument field -/

/-- Reading a field of `b + 1` bits as two's complement is taking the balanced remainder. -/
theorem signExtend_toNat_emod (b : Nat) (x : Int) :
    signExtend (b + 1) (x % 2 ^ (b + 1)).toNat = x.bmod (2 ^ (b + 1)) := by
  have hpow : (2 : Int) ^ (b + 1) = 2 * 2 ^ b := pow_succ' 2 b
  have hpos : (0 : Int) < 2 ^ b := by positivity
  have hnonneg : 0 ≤ x % 2 ^ (b + 1) := Int.emod_nonneg _ (by positivity)
  have hhalf : ((2 ^ (b + 1) : Nat) + 1 : Int) / 2 = 2 ^ b := by push_cast; omega
  have hlt : (x % 2 ^ (b + 1)).toNat < 2 ^ b ↔ x % 2 ^ (b + 1) < 2 ^ b := by
    rw [← Int.ofNat_lt, Int.toNat_of_nonneg hnonneg]
    norm_cast
  simp only [signExtend, Int.bmod_def, Nat.add_sub_cancel, hlt, hhalf, Int.toNat_of_nonneg hnonneg]
  push_cast
  rfl

/-- A legal bounded instance has an argument field of at least one bit. -/
theorem Params.one_le_argw {p : Params} {m : Nat} (hwf : p.wf = true) (hmax : p.wMax = some m) : 1 ≤ p.argw := by
  by_contra hzero
  obtain hargw : p.argw = 0 := by omega
  simp [Params.wf, hmax, hargw] at hwf
  omega

/-- The operand of a bounded instance's word (30_encoding R73). -/
theorem argField_bounded {p : Params} {m : Nat} (hwf : p.wf = true) (hmax : p.wMax = some m) (cw : Int) :
    argField p cw = (cw / 256).bmod (2 ^ p.argw) := by
  obtain ⟨b, hb⟩ := Nat.exists_eq_add_of_le' (Params.one_le_argw hwf hmax)
  simp only [argField, hmax, hb, signExtend_toNat_emod]

theorem argField_unbounded {p : Params} (hmax : p.wMax = none) (cw : Int) : argField p cw = cw / 256 := by
  simp [argField, hmax]

/-- Settles O5, from the range and the remainder of the balanced remainder. -/
theorem argumentFieldIsTwosComplement : Obligations.ArgumentFieldIsTwosComplement := by
  intro p m cw hwf hmax
  obtain ⟨b, hb⟩ := Nat.exists_eq_add_of_le' (Params.one_le_argw hwf hmax)
  have hpow : (2 : Int) ^ (b + 1) = 2 * 2 ^ b := pow_succ' 2 b
  have hlow := Int.le_bmod (x := cw / 256) (m := 2 ^ (b + 1)) (by positivity)
  have hhigh := Int.bmod_lt (x := cw / 256) (m := 2 ^ (b + 1)) (by positivity)
  have hmod := Int.bmod_emod (x := cw / 256) (m := 2 ^ (b + 1))
  rw [argField_bounded hwf hmax, hb, Nat.add_sub_cancel]
  push_cast at hlow hhigh hmod
  exact ⟨by omega, by omega, hmod⟩

/-! ## Decoding -/

theorem controlByte_eq_iff (cw : Int) (c : Byte) : controlByte cw = c ↔ cw % 256 = (c.toNat : Int) := by
  rw [← BitVec.toNat_inj, ← Int.natCast_inj, controlByte_toNat]

/-- The decoder reads the command from its control byte and its argument field. -/
theorem decode_of_fields {p : Params} {cw : Int} {i : Instr} (hcontrol : controlByte cw = i.control)
    (harg : argField p cw = i.arg) : decode p cw = .ok i := by
  cases i with
  | rev n az => cases az <;> simp_all [decode, rsvField, opField, azField, Instr.control, Instr.arg]
  | aev w | aod w | rod n | nxt | stp =>
    simp_all [decode, rsvField, opField, azField, Instr.control, Instr.arg]

/-- A word that the decoder does not reject has the two fields of some command. -/
theorem exists_fields_of_legal {p : Params} {cw : Int} (h : ¬ ∃ err, decode p cw = .error err) :
    ∃ i : Instr, controlByte cw = i.control ∧ argField p cw = i.arg := by
  rw [decode_error_iff, Ne, rsvField_eq_zero_iff, six_le_opField_iff, azField_iff, Ne, opField_eq_iff, opField_eq_iff,
    opField_eq_iff] at h
  have hbytes : cw % 256 = 0 ∨ cw % 256 = 1 ∨ cw % 256 = 2 ∨ cw % 256 = 10 ∨ cw % 256 = 3 ∨
      (cw % 256 = 4 ∧ argField p cw = 0) ∨ (cw % 256 = 5 ∧ argField p cw = 0) := by
    simp only [BitVec.ofNat_eq_ofNat, BitVec.toNat_ofNat] at h
    omega
  simp only [controlByte_eq_iff]
  obtain hc | hc | hc | hc | hc | ⟨hc, harg⟩ | ⟨hc, harg⟩ := hbytes
  · exact ⟨.aev (argField p cw), hc, rfl⟩
  · exact ⟨.aod (argField p cw), hc, rfl⟩
  · exact ⟨.rev (argField p cw) false, hc, rfl⟩
  · exact ⟨.rev (argField p cw) true, hc, rfl⟩
  · exact ⟨.rod (argField p cw), hc, rfl⟩
  · exact ⟨.nxt, hc, harg⟩
  · exact ⟨.stp, hc, harg⟩

/-- A word decodes to a command exactly when it has the command's control byte and operand (30_encoding R76, R86). -/
theorem decode_eq_ok_iff (p : Params) (cw : Int) (i : Instr) :
    decode p cw = .ok i ↔ cw % 256 = (i.control.toNat : Int) ∧ argField p cw = i.arg := by
  rw [← controlByte_eq_iff]
  refine ⟨fun h => ?_, fun ⟨hcontrol, harg⟩ => decode_of_fields hcontrol harg⟩
  obtain ⟨j, hcontrol, harg⟩ := exists_fields_of_legal (p := p) (cw := cw) (by simp [h])
  obtain rfl : j = i := by simpa [h] using (decode_of_fields hcontrol harg).symm
  exact ⟨hcontrol, harg⟩

/-- Settles O4, each control byte read from the fields of its command. -/
theorem controlByteSelectsCommand : Obligations.ControlByteSelectsCommand := by
  intro p cw
  simp only [decode_eq_ok_iff]
  exact ⟨fun h => ⟨h, rfl⟩, fun h => ⟨h, rfl⟩, fun h => ⟨h, rfl⟩, fun h => ⟨h, rfl⟩, fun h => ⟨h, rfl⟩,
    fun h harg => ⟨h, harg⟩, fun h harg => ⟨h, harg⟩⟩

/-- Settles O1, by running the decoder on the eleven words. -/
theorem writtenWordsDecode : Obligations.WrittenWordsDecode := by
  unfold Obligations.WrittenWordsDecode
  decide

/-! ## Encoding -/

/-- A command has an encoding when its operand fits; the operand 0 of `NXT` and `STP` does. -/
theorem wellFormed_eq_fitsArg (p : Params) (i : Instr) : i.wellFormed p = p.fitsArg i.arg := by
  cases i with
  | nxt | stp => cases hmax : p.wMax <;> simp [Instr.wellFormed, Instr.arg, Params.fitsArg, hmax]
  | aev w | aod w | rev n az | rod n => rfl

/-- The argument field of an operand that fits is read back as the operand. -/
theorem argField_of_argBits {p : Params} {cw a : Int} (hwf : p.wf = true) (hfits : p.fitsArg a = true)
    (hfield : cw / 256 = p.argBits a) : argField p cw = a := by
  cases hmax : p.wMax with
  | none => simpa [argField_unbounded hmax, Params.argBits, hmax] using hfield
  | some m =>
    obtain ⟨b, hb⟩ := Nat.exists_eq_add_of_le' (Params.one_le_argw hwf hmax)
    simp only [Params.fitsArg, hmax, hb, Nat.add_sub_cancel, Bool.and_eq_true, decide_eq_true_iff] at hfits
    have hpow : (2 : Int) ^ (b + 1) = 2 * 2 ^ b := pow_succ' 2 b
    simp only [Params.argBits, hmax, hb] at hfield
    rw [argField_bounded hwf hmax, hb, hfield]
    have hmod := Int.emod_bmod (x := a) (n := 2 ^ (b + 1))
    push_cast at hmod
    rw [hmod]
    refine Int.bmod_eq_of_le ?_ ?_ <;> push_cast <;> omega

/-- Settles O2: the two fields of the encoded word are those of the command. -/
theorem decodeOfEncodeIsIdentity : Obligations.DecodeOfEncodeIsIdentity := by
  intro p i hwf hform
  obtain ⟨hcontrol, hfield⟩ := Laws.encode_fields p i
  rw [wellFormed_eq_fitsArg] at hform
  exact (decode_eq_ok_iff p _ i).2 ⟨hcontrol, argField_of_argBits hwf hform hfield⟩

/-- The operand that is read from a word fits its field. -/
theorem fitsArg_argField {p : Params} (hwf : p.wf = true) (cw : Int) : p.fitsArg (argField p cw) = true := by
  cases hmax : p.wMax with
  | none => simp [Params.fitsArg, hmax]
  | some m =>
    obtain ⟨hlow, hhigh, _⟩ := argumentFieldIsTwosComplement p m cw hwf hmax
    simp [Params.fitsArg, hmax, hlow, hhigh]

/-- The operand put back into its field, above the control byte, gives the bits of the word that the instance sees. -/
theorem argBits_argField {p : Params} (hwf : p.wf = true) (cw : Int) :
    p.argBits (argField p cw) * 256 + cw % 256 = p.commandBits cw := by
  cases hmax : p.wMax with
  | none =>
    simp only [Params.argBits, Params.commandBits, hmax, argField_unbounded]
    omega
  | some m =>
    obtain ⟨_, _, hmod⟩ := argumentFieldIsTwosComplement p m cw hwf hmax
    have hpos : (0 : Int) < 2 ^ p.argw := by positivity
    have hnonneg := Int.emod_nonneg (cw / 256) hpos.ne'
    have hlt := Int.emod_lt_of_pos (cw / 256) hpos
    have hfield := Int.emod_add_mul_ediv (cw / 256) (2 ^ p.argw)
    have hword : cw = cw / 256 % 2 ^ p.argw * 256 + cw % 256 + 256 * 2 ^ p.argw * (cw / 256 / 2 ^ p.argw) := by
      rw [Int.mul_assoc]
      omega
    have hbits : cw % (256 * 2 ^ p.argw) = cw / 256 % 2 ^ p.argw * 256 + cw % 256 := by
      conv_lhs => rw [hword, Int.add_mul_emod_self_left]
      exact Int.emod_eq_of_lt (by omega) (by omega)
    simp only [Params.argBits, Params.commandBits, hmax, hmod, pow_add]
    exact hbits.symm

/-- Settles O3: the fields of a legal word are those of its command. -/
theorem encodeOfDecodeIsIdentity : Obligations.EncodeOfDecodeIsIdentity := by
  intro p cw i hwf hdecode
  obtain ⟨hcontrol, harg⟩ := (decode_eq_ok_iff p cw i).1 hdecode
  rw [wellFormed_eq_fitsArg, encode, ← harg, ← hcontrol]
  exact ⟨fitsArg_argField hwf cw, argBits_argField hwf cw⟩

end Sys2Proof

namespace Sys2Proof.Machine

/-! ## The response word -/

/-- Three fields packed one above the other into a number, and read from it again. -/
theorem packed_fields {a b c k m e : Nat} (ha : a < 2 ^ k) (hb : b < 2 ^ m) (hc : c < 2 ^ e) :
    a + b * 2 ^ k + c * 2 ^ (k + m) < 2 ^ (k + m + e) ∧ (a + b * 2 ^ k + c * 2 ^ (k + m)) % 2 ^ k = a ∧
    (a + b * 2 ^ k + c * 2 ^ (k + m)) / 2 ^ k % 2 ^ m = b ∧ (a + b * 2 ^ k + c * 2 ^ (k + m)) / 2 ^ (k + m) = c := by
  have hpack : a + b * 2 ^ k + c * 2 ^ (k + m) = 2 ^ k * (2 ^ m * c + b) + a := by ring
  have hupper : 2 ^ m * c + b < 2 ^ (m + e) := by
    rw [pow_add]
    nlinarith
  have hdiv : (2 ^ k * (2 ^ m * c + b) + a) / 2 ^ k = 2 ^ m * c + b := by
    rw [Nat.mul_add_div (Nat.two_pow_pos k), Nat.div_eq_of_lt ha, Nat.add_zero]
  rw [hpack, pow_add 2 k m, ← Nat.div_div_eq_div_mul, hdiv, Nat.mul_add_mod, Nat.mod_eq_of_lt ha, Nat.mul_add_mod,
    Nat.mod_eq_of_lt hb, Nat.mul_add_div (Nat.two_pow_pos m), Nat.div_eq_of_lt hb, Nat.add_assoc k m e, pow_add 2 k (m + e)]
  exact ⟨by nlinarith, rfl, rfl, rfl⟩

/-- Settles O7: a response that its fields can carry is packed as it is. -/
theorem responseWordFields : Obligations.ResponseWordFields := by
  intro p m r hmax hr
  have hword : responseWord p r =
      some ((statusCode r.status).toNat + r.pat * 2 ^ 3 + r.ecode * 2 ^ (3 + m)) := by
    simp only [responseWord, hmax, Nat.mod_eq_of_lt (hr.pat m hmax), Nat.mod_eq_of_lt hr.ecode]
  exact ⟨_, hword, packed_fields (statusCode r.status).isLt (hr.pat m hmax) hr.ecode⟩

end Sys2Proof.Machine

/-!
PROOFS. The statements of 40_enumerator about the sequence `SEQ(w, p)` (R102, R103, R113, R117, R118), and the one of 00_scope
behind them (R15(a)): a leading one flips the parity, so the doubling construction puts the closed form at index `k + 2^w` for
each index `k` (`seqElem_leading_one`). All else is read from the closed form (`seqOf_succ`).
-/

namespace Sys2Proof.Machine

/-! ## A leading one -/

theorem popcount_leading_one {k v : Nat} (hv : v < 2 ^ k) : popcount (2 ^ k + v) = popcount v + 1 := by
  have hsum : 2 ^ k + v < 2 ^ (k + 1) := by rw [pow_succ]; omega
  have hlow : ∀ i < k, (2 ^ k + v).testBit i = v.testBit i := fun i hi => Nat.testBit_two_pow_add_gt hi v
  have htop : (2 ^ k + v).testBit k = true := by simp [Nat.testBit_two_pow_add_eq, Nat.testBit_lt_two_pow hv]
  rw [popcount_eq_bitCount hsum, popcount_eq_bitCount hv, bitCount, bitCount_congr hlow, htop]
  rfl

theorem par_leading_one {k v : Nat} (hv : v < 2 ^ k) : par (2 ^ k + v) = (par v).flip :=
  par_succ (popcount_leading_one hv)

/-- Settles O43, by counting the bits below the leading one and the leading one. -/
theorem leadingOneFlipsParity : Obligations.LeadingOneFlipsParity := by
  intro w v _ hv
  refine ⟨?_, popcount_leading_one hv, par_leading_one hv⟩
  simpa using Nat.two_pow_add_eq_or_of_lt hv 1

/-! ## The closed form -/

@[simp] theorem Parity.flip_flip (p : Parity) : p.flip.flip = p := by cases p <;> rfl

theorem Parity.eq_flip_iff (p q : Parity) : p = q.flip ↔ p.flip = q := by cases p <;> cases q <;> decide

/-- The element at the index with a leading one is the one of the other parity with a leading one. -/
theorem seqElem_leading_one {w k : Nat} (hk : k < 2 ^ w) (p : Parity) :
    seqElem p (2 ^ w + k) = 2 ^ (w + 1) + seqElem p.flip k := by
  rw [seqElem, seqElem, par_leading_one hk, pow_succ]
  simp only [Parity.eq_flip_iff]
  ring

/-- The sequence of the doubling construction in closed form (40_enumerator R113). -/
theorem seqOf_succ (w : Nat) (p : Parity) : seqOf (w + 1) p = (List.range (2 ^ w)).map (seqElem p) := by
  induction w using Nat.strong_induction_on generalizing p with
  | _ w ih =>
    match w with
    | 0 => cases p <;> decide
    | 1 => cases p <;> decide
    | w + 2 =>
      have hflipped : (List.range (2 ^ (w + 1))).map (seqElem p ∘ (2 ^ (w + 1) + ·)) =
          (seqOf (w + 2) p.flip).map fun v => 2 ^ (w + 2) + v := by
        rw [ih (w + 1) (by omega), List.map_map]
        exact List.map_congr_left fun k hk => seqElem_leading_one (List.mem_range.1 hk) p
      rw [seqOf, ← hflipped, ih (w + 1) (by omega), pow_succ 2 (w + 1), Nat.mul_two, List.range_add, List.map_append,
        List.map_map]

/-- Settles O36, the closed form at the width `w = (w - 1) + 1`. -/
theorem sequenceClosedForm : Obligations.SequenceClosedForm := by
  intro w p hw
  obtain ⟨w, rfl⟩ := Nat.exists_eq_add_of_le' hw
  exact seqOf_succ w p

/-! ## Lengths, order and members -/

/-- The length of a sequence is its count (40_enumerator R102). -/
theorem length_seqOf (w : Nat) (p : Parity) : (seqOf w p).length = seqCount w p := by
  cases w with
  | zero => cases p <;> decide
  | succ w => rw [seqOf_succ, List.length_map, List.length_range, seqCount]

/-- Settles O35, from the count of each width. -/
theorem sequenceCounts : Obligations.SequenceCounts := by
  refine ⟨length_seqOf 0 .even, length_seqOf 0 .odd, fun w p hw => ?_, fun w => ?_⟩
  · obtain ⟨w, rfl⟩ := Nat.exists_eq_add_of_le' hw
    exact length_seqOf (w + 1) p
  · rw [length_seqOf, length_seqOf]
    cases w with
    | zero => rfl
    | succ w => rw [seqCount, seqCount, pow_succ, Nat.mul_two]

theorem seqElem_lt_seqElem {k l : Nat} (h : k < l) (p : Parity) : seqElem p k < seqElem p l := by
  unfold seqElem
  split <;> split <;> omega

/-- Settles O38: the closed form rises with the index. -/
theorem sequenceAscends : Obligations.SequenceAscends := by
  intro w p
  cases w with
  | zero => cases p <;> decide
  | succ w =>
    rw [seqOf_succ, List.pairwise_map]
    exact List.pairwise_lt_range.imp fun h => seqElem_lt_seqElem h p

/-- The low bit of the element makes its parity the one asked for. -/
theorem par_seqElem (p : Parity) (k : Nat) : par (seqElem p k) = p := by
  unfold seqElem
  by_cases h : p = par k
  · have hcount := popcount_two_mul_add k 0 (by omega)
    rw [if_pos h, h, par, hcount]
    rfl
  · rw [if_neg h, par_succ (popcount_two_mul_add k 1 (by omega))]
    revert h
    cases p <;> cases par k <;> decide

/-- A number is the element of its own parity at the index that its upper bits form. -/
theorem seqElem_par_half (v : Nat) : seqElem (par v) (v / 2) = v := by
  have hsplit := popcount_two_mul_add (v / 2) (v % 2) (by omega)
  rw [Nat.div_add_mod] at hsplit
  unfold seqElem
  obtain hbit | hbit := Nat.mod_two_eq_zero_or_one v
  · have hpar : par v = par (v / 2) := by rw [par, hsplit, hbit]; rfl
    rw [if_pos hpar]
    omega
  · have hpar : par v = (par (v / 2)).flip := par_succ (by rw [hsplit, hbit])
    rw [if_neg (by rw [hpar]; cases par (v / 2) <;> decide)]
    omega

theorem seqElem_div_two (p : Parity) (k : Nat) : seqElem p k / 2 = k := by
  unfold seqElem
  split <;> omega

theorem seqOf_zero_even : seqOf 0 .even = [0] := by decide

theorem seqOf_zero_odd : seqOf 0 .odd = [] := by decide

/-- A sequence holds the numbers of its width and parity (40_enumerator R103, R117). -/
theorem mem_seqOf (w v : Nat) (p : Parity) : v ∈ seqOf w p ↔ v < 2 ^ w ∧ par v = p := by
  cases w with
  | zero =>
    have hzero : par 0 = .even := rfl
    cases p with
    | even => simpa [seqOf_zero_even] using fun h => h ▸ hzero
    | odd => simpa [seqOf_zero_odd] using fun h => by simp [h, hzero]
  | succ w =>
    rw [seqOf_succ, List.mem_map]
    constructor
    · rintro ⟨k, hk, rfl⟩
      have hindex := seqElem_div_two p k
      rw [List.mem_range] at hk
      exact ⟨by rw [pow_succ]; omega, par_seqElem p k⟩
    · rintro ⟨hv, rfl⟩
      exact ⟨v / 2, List.mem_range.2 (by rw [pow_succ] at hv; omega), seqElem_par_half v⟩

/-- Settles O37: the two sequences have no repetition and no common element, and the same members as the range. -/
theorem sequencesPartitionTheRange : Obligations.SequencesPartitionTheRange := by
  intro w
  have hnodup : ∀ p, (seqOf w p).Nodup := fun p => (sequenceAscends w p).imp fun h => h.ne
  have hdisjoint : (seqOf w .even).Disjoint (seqOf w .odd) := by
    intro v heven hodd
    have hpar := ((mem_seqOf w v _).1 heven).2.symm.trans ((mem_seqOf w v _).1 hodd).2
    cases hpar
  refine ⟨(List.perm_ext_iff_of_nodup ((hnodup _).append (hnodup _) hdisjoint) List.nodup_range).2 fun v => ?_,
    fun p v hv => ((mem_seqOf w v p).1 hv).2⟩
  rw [List.mem_append, mem_seqOf, mem_seqOf, List.mem_range, ← and_or_left]
  exact and_iff_left (by cases par v <;> simp)

end Sys2Proof.Machine

/-!
PROOFS. The statements of 40_enumerator about the position in a sequence (R105 to R114, and R29 of 10_state). From width 2 on
the phases and the base index are the digits of the position's index: `cur` is the closed form at it
(`Enumerator.cur_eq_seqElem`) and the advance is a carry, which adds one (`raisePhase_eq_succ`). Below width 2 there is at most
one element. Both are put together in `Enumerator.seqOf_getElem?_index` and `Enumerator.advance_cases`.
-/

namespace Sys2Proof.Machine

/-! ## What the commands do to the position -/

theorem respond_of_not_waiting (st : Status) (pat ecode : Nat) {s : State} (hw : s.waiting = none) :
    respond st pat ecode s = { s with rsp := s.rsp ++ [⟨st, pat, ecode⟩] } := by
  simp only [respond, ← hw]

/-- An accepted start answers `OK` and writes `S` (40_enumerator R105). -/
theorem exec_startCommand_of_accepted {w : Nat} {s : State} (hx : exceeds s.params w = false) (p : Parity) :
    exec (startCommand w p) s =
      .next { s with enum := Enumerator.start w p, waiting := none, rsp := s.rsp ++ [⟨.ok, 0, 0⟩] } := by
  rw [exec_startCommand]
  obtain ⟨hneg, _⟩ | ⟨_, habove, _⟩ | ⟨_, _, h⟩ := startSequence_cases w p s
  · omega
  · simp [hx] at habove
  · rw [h, Int.toNat_natCast]
    rfl

/-- Settles O24: no even sequence is empty. -/
theorem aevOpensEvenSequence : Obligations.AevOpensEvenSequence := by
  intro w s hx
  rw [show Instr.aev w = startCommand w .even from rfl, exec_startCommand_of_accepted hx,
    Enumerator.start_of_nonempty (by simp)]
  rfl

/-- Settles O25: of the odd sequences only that of width 0 is empty. -/
theorem aodOpensOddSequence : Obligations.AodOpensOddSequence := by
  intro w s hx
  rw [show Instr.aod w = startCommand w .odd from rfl, exec_startCommand_of_accepted hx]
  by_cases hw : w = 0
  · rw [if_pos hw, hw, Enumerator.start_zero_odd]
    rfl
  · rw [if_neg hw, Enumerator.start_of_nonempty fun h => hw h.1]
    rfl

/-- Settles O28, the pull of an active sequence. -/
theorem nxtAnswersTheCurrentElement : Obligations.NxtAnswersTheCurrentElement :=
  fun s hactive => (exec_nxt s).trans (congrArg _ (pullElement_of_active hactive))

/-- Settles O31: `STP` looks at nothing. -/
theorem stpClosesTheSequence : Obligations.StpClosesTheSequence := exec_stp

/-! ## The advance -/

theorem Enumerator.advance_in_row {e : Enumerator} (h : e.bi.toNat + 1 < e.rowLen) :
    e.advance = { e with bi := e.bi + 1#1 } := by
  rw [Enumerator.advance, if_pos h]

theorem Enumerator.advance_of_level {e : Enumerator} {j0 : Nat} (h : ¬ e.bi.toNat + 1 < e.rowLen)
    (hj : e.deepestUnflipped = some j0) : e.advance = { e with ph := raisePhase e.ph j0, bi := 0#1 } := by
  rw [Enumerator.advance, if_neg h, hj]

theorem Enumerator.advance_of_no_level {e : Enumerator} (h : ¬ e.bi.toNat + 1 < e.rowLen)
    (hj : e.deepestUnflipped = none) : e.advance = Enumerator.exhausted := by
  rw [Enumerator.advance, if_neg h, hj]

/-- No row has more than two entries. -/
theorem romLen_le_two (bw : BitVec 2) (q : Parity) : romLen bw q ≤ 2 := by
  unfold romLen
  exact Nat.add_le_add (Bool.toNat_le _) (Bool.toNat_le _)

/-- With an entry left in the row the base index is 0. -/
theorem Enumerator.bi_zero_of_in_row {e : Enumerator} (h : e.bi.toNat + 1 < e.rowLen) : e.bi = 0#1 := by
  have hlen : e.rowLen ≤ 2 := romLen_le_two _ _
  obtain hbi | hbi := bit_cases e.bi
  · exact hbi
  · rw [hbi] at h
    exact absurd (h.trans_le hlen) (by decide)

/-- `min J` is the level in its same-parity half below which no other is (40_enumerator R110). -/
theorem Enumerator.deepestUnflipped_eq_some_iff {e : Enumerator} {j0 : Nat} :
    e.deepestUnflipped = some j0 ↔
      3 ≤ j0 ∧ j0 ≤ e.ew ∧ e.phase j0 = false ∧ ∀ i, 3 ≤ i → i < j0 → e.phase i = true := by
  constructor
  · intro h
    obtain ⟨hlow, hhigh, hphase, hbelow⟩ := find?_range'.1 j0 h
    exact ⟨hlow, by omega, by simpa using hphase, fun i h3 hi => by simpa using hbelow i h3 hi⟩
  · rintro ⟨hlow, hhigh, hphase, hbelow⟩
    cases h : e.deepestUnflipped with
    | none =>
      have hall := find?_range'.2 h j0 hlow (by omega)
      simp [hphase] at hall
    | some j =>
      obtain ⟨hlow', _, hphase', hbelow'⟩ := find?_range'.1 j h
      obtain hlt | rfl | hlt := Nat.lt_trichotomy j j0
      · simp [hbelow j hlow' hlt] at hphase'
      · rfl
      · simpa [hphase] using hbelow' j0 hlow hlt

/-- The levels after the advance has moved level `j0` to its flipped half. -/
theorem phase_raisePhase (e : Enumerator) {j0 : Nat} (hj : 3 ≤ j0) (i : Nat) :
    { e with ph := raisePhase e.ph j0, bi := 0#1 : Enumerator }.phase i =
      if i < j0 then false else if i = j0 then true else e.phase i := by
  by_cases h3 : 3 ≤ i
  · have hlt : i - 3 < j0 - 3 ↔ i < j0 := by omega
    have heq : i - 3 = j0 - 3 ↔ i = j0 := by omega
    simp [Enumerator.phase, raisePhase_testBit, hj, h3, hlt, heq]
  · simp [Enumerator.phase, h3, show i < j0 by omega]

/-- Settles O27, by the three branches of the advance. -/
theorem advanceMovesThePosition : Obligations.AdvanceMovesThePosition := by
  intro e
  refine ⟨fun hrow => ?_, fun hrow j0 hlow hhigh hphase hbelow => ?_, fun hrow hall => ?_⟩
  · rw [Enumerator.advance_in_row hrow, Enumerator.bi_zero_of_in_row hrow]
    rfl
  · rw [Enumerator.advance_of_level hrow (Enumerator.deepestUnflipped_eq_some_iff.2 ⟨hlow, hhigh, hphase, hbelow⟩)]
    simp only [phase_raisePhase e hlow]
    exact ⟨trivial, trivial, trivial, trivial, by simp, fun i hi => by simp [hi], fun i hi => by
      rw [if_neg (by omega), if_neg (by omega)]⟩
  · exact Enumerator.advance_of_no_level hrow (Enumerator.deepestUnflipped_eq_none hall)

/-- Raising the lowest bit that is clear, and clearing those below it, adds one. -/
theorem raisePhase_eq_succ {ph j0 : Nat} (hclear : ph.testBit (j0 - 3) = false)
    (hset : ∀ i < j0 - 3, ph.testBit i = true) : raisePhase ph j0 = ph + 1 := by
  unfold raisePhase
  generalize j0 - 3 = k at *
  have hlow : ph % 2 ^ k = 2 ^ k - 1 := by
    refine Nat.eq_of_testBit_eq fun i => ?_
    rw [Nat.testBit_mod_two_pow, Nat.testBit_two_pow_sub_one]
    by_cases hi : i < k
    · simp [hi, hset i hi]
    · simp [hi]
  have heven : ph / 2 ^ k % 2 = 0 := by
    rw [Nat.testBit_eq_decide_div_mod_eq, decide_eq_false_iff_not] at hclear
    omega
  have hsplit := Nat.div_add_mod ph (2 ^ k)
  have hupper : 2 ^ k * (ph / 2 ^ k) = 2 ^ (k + 1) * (ph / 2 ^ k / 2) := by
    rw [pow_succ, Nat.mul_assoc, Nat.mul_div_cancel' (Nat.dvd_of_mod_eq_zero heven)]
  rw [Nat.shiftRight_eq_div_pow, Nat.shiftLeft_eq, Nat.mul_comm, hupper,
    ← Nat.two_pow_add_eq_or_of_lt (Nat.pow_lt_pow_succ (by omega)), ← hupper]
  have hpos := Nat.two_pow_pos k
  omega

/-- The advance to another level is the next setting of the phases. -/
theorem Enumerator.raisePhase_deepest {e : Enumerator} {j0 : Nat} (h : e.deepestUnflipped = some j0) :
    raisePhase e.ph j0 = e.ph + 1 := by
  obtain ⟨hlow, _, hphase, hbelow⟩ := Enumerator.deepestUnflipped_eq_some_iff.1 h
  refine raisePhase_eq_succ ?_ fun i hi => ?_
  · simpa [Enumerator.phase, hlow] using hphase
  · simpa [Enumerator.phase_level] using hbelow (3 + i) (by omega) (by omega)

/-! ## The base row in the closed form -/

/-- The rows of base width 2 are in the closed form themselves (20_memory R52). -/
theorem memRead_two_eq_seqElem (q : Parity) (i : BitVec 1) :
    (memRead (romOf q) (romAddr 2#2 i)).val.toNat = seqElem q i.toNat := by
  revert i
  cases q <;> decide

/-- The upper bits of an index settle the parity of the row, and its low bit the entry of the row. -/
theorem seqElem_two_mul_add (p : Parity) (k : Nat) (i : BitVec 1) :
    seqElem p (2 * k + i.toNat) = 4 * k + seqElem (if par k = .odd then p.flip else p) i.toNat := by
  have hcount := popcount_two_mul_add k i.toNat (by omega)
  have hrow : p = par (2 * k + i.toNat) ↔ (if par k = .odd then p.flip else p) = par i.toNat := by
    obtain rfl | rfl := bit_cases i
    · rw [show par (2 * k + (0#1).toNat) = par k by rw [par, hcount]; rfl]
      cases p <;> cases par k <;> decide
    · rw [show par (2 * k + (1#1).toNat) = (par k).flip from par_succ hcount]
      cases p <;> cases par k <;> decide
  simp only [seqElem, hrow]
  ring

/-! ## Good active positions -/

section ActivePosition

variable {p : Params} {e : Enumerator} (hwf : e.wf p) (hactive : e.st = .active)

include hwf hactive

/-- The empty sequence is never in use (10_state R29, I-d). -/
theorem Enumerator.ep_of_width_zero (hw : e.ew = 0) : e.ep = .even := by
  cases hep : e.ep with
  | even => rfl
  | odd => exact absurd ⟨hw, hep⟩ (hwf.nonempty hactive)

/-- Below width 2 the sequence is at its one element. -/
theorem Enumerator.index_narrow (hw : e.ew < 2) : e.ph = 0 ∧ e.bi = 0#1 ∧ seqCount e.ew e.ep = 1 := by
  have hph := Enumerator.ph_lt hwf hactive
  have hbi := (hwf.index hactive).trans_le (romLen_narrow hw e.rowParity)
  rw [show e.ew - 2 = 0 by omega] at hph
  refine ⟨by omega, by bv_omega, ?_⟩
  obtain hw | hw : e.ew = 0 ∨ e.ew = 1 := by omega
  · rw [hw, Enumerator.ep_of_width_zero hwf hactive hw, seqCount]
  · rw [hw, seqCount, Nat.pow_zero]

/-- The index designates an element of the sequence. -/
theorem Enumerator.index_lt : e.index < seqCount e.ew e.ep := by
  rw [Enumerator.index]
  obtain hw | hw := Nat.lt_or_ge e.ew 2
  · obtain ⟨hph, hbi, hcount⟩ := Enumerator.index_narrow hwf hactive hw
    rw [hph, hbi, hcount]
    decide
  · have hph := Enumerator.ph_lt hwf hactive
    have hbi := e.bi.isLt
    rw [seqCount_wide hw]
    omega

/-- The current element in closed form (40_enumerator R113): the flips and the entry's low bit make up the parity of the index. -/
theorem Enumerator.cur_eq_seqElem (hw : 1 ≤ e.ew) : e.cur = seqElem e.ep e.index := by
  have hrow := Enumerator.rowParity_eq (Enumerator.ph_lt hwf hactive)
  obtain hnarrow | hwide := Nat.lt_or_ge e.ew 2
  · obtain ⟨hph, hbi, _⟩ := Enumerator.index_narrow hwf hactive hnarrow
    have hone : e.ew = 1 := by omega
    rw [Enumerator.cur, Enumerator.lead_eq, hrow, Enumerator.baseWidth, Enumerator.index, hone, hph, hbi]
    cases e.ep <;> decide
  · rw [Enumerator.cur, Enumerator.lead_eq, Nat.mod_eq_of_lt (Enumerator.ph_lt hwf hactive), Enumerator.baseWidth_two hwide,
      memRead_two_eq_seqElem, hrow, Enumerator.index, seqElem_two_mul_add]

/-- The position designates the element of the sequence at its index (40_enumerator R109, R113). -/
theorem Enumerator.seqOf_getElem?_index : (seqOf e.ew e.ep)[e.index]? = some e.cur := by
  have hindex := Enumerator.index_lt hwf hactive
  obtain hw | hw := Nat.eq_zero_or_pos e.ew
  · obtain ⟨hph, hbi, _⟩ := Enumerator.index_narrow hwf hactive (by omega)
    have hrow := Enumerator.rowParity_eq (Enumerator.ph_lt hwf hactive)
    rw [Enumerator.cur, Enumerator.lead_eq, hrow, Enumerator.baseWidth, Enumerator.index, hw, hph, hbi,
      Enumerator.ep_of_width_zero hwf hactive hw]
    decide
  · rw [Enumerator.cur_eq_seqElem hwf hactive hw]
    obtain ⟨w, hw⟩ := Nat.exists_eq_add_of_le' hw
    rw [hw, seqCount] at hindex
    simp [hw, seqOf_succ, hindex]

/-- With every level in its flipped half the number of the phases is the greatest. -/
theorem Enumerator.ph_full_of_no_level (h : e.deepestUnflipped = none) : e.ph = 2 ^ (e.ew - 2) - 1 := by
  refine Nat.eq_of_testBit_eq fun i => ?_
  rw [Nat.testBit_two_pow_sub_one, ← Enumerator.phase_level]
  by_cases hi : i < e.ew - 2
  · simpa [hi] using find?_range'.2 h (3 + i) (by omega) (by omega)
  · simpa [hi] using hwf.levels hactive (3 + i) (by omega)

/-- The advance goes to the next index, or after the last element to `EXHAUSTED` (40_enumerator R110, R111, R113). -/
theorem Enumerator.advance_cases :
    (e.index + 1 < seqCount e.ew e.ep ∧ e.advance.st = .active ∧ e.advance.ew = e.ew ∧ e.advance.ep = e.ep ∧
      e.advance.index = e.index + 1) ∨
    (e.index + 1 = seqCount e.ew e.ep ∧ e.advance = Enumerator.exhausted) := by
  obtain hlast | hnext : e.index + 1 = seqCount e.ew e.ep ∨ e.index + 1 < seqCount e.ew e.ep := by
    have := Enumerator.index_lt hwf hactive
    omega
  · exact .inr ⟨hlast, Enumerator.advance_at_last hwf hactive hlast⟩
  refine .inl ⟨hnext, ?_⟩
  obtain hrow | hrow := Decidable.em (e.bi.toNat + 1 < e.rowLen)
  · have hbi := Enumerator.bi_zero_of_in_row hrow
    rw [Enumerator.advance_in_row hrow, Enumerator.index, Enumerator.index, hbi]
    exact ⟨hactive, rfl, rfl, rfl⟩
  · cases hlevel : e.deepestUnflipped with
    | none =>
      have hfull := Enumerator.ph_full_of_no_level hwf hactive hlevel
      obtain hw | hw := Nat.lt_or_ge e.ew 2
      · obtain ⟨hph, hbi, hcount⟩ := Enumerator.index_narrow hwf hactive hw
        simp [Enumerator.index, hph, hbi, hcount] at hnext
      · have hpos := Nat.two_pow_pos (e.ew - 2)
        rw [Enumerator.index, seqCount_wide hw] at hnext
        rw [Enumerator.rowLen_two hw] at hrow
        omega
    | some j0 =>
      have hwide : 2 ≤ e.ew := by have := Enumerator.deepestUnflipped_eq_some_iff.1 hlevel; omega
      have hbi : e.bi.toNat = 1 := by
        rw [Enumerator.rowLen_two hwide] at hrow
        have := e.bi.isLt
        omega
      rw [Enumerator.advance_of_level hrow hlevel, Enumerator.index, Enumerator.index, hbi,
        Enumerator.raisePhase_deepest hlevel]
      exact ⟨hactive, rfl, rfl, rfl⟩

end ActivePosition

/-- Settles O33: the index is below the count of the sequence, and the element at it is in closed form. -/
theorem currentElementClosedForm : Obligations.CurrentElementClosedForm := by
  intro p e hwf hactive hw
  have hindex := Enumerator.index_lt hwf hactive
  refine ⟨?_, Enumerator.cur_eq_seqElem hwf hactive hw⟩
  obtain ⟨w, hw⟩ := Nat.exists_eq_add_of_le' hw
  rw [hw, seqCount] at hindex
  rwa [hw, Nat.add_sub_cancel]

/-- Settles O34: the current element is a member of the sequence. -/
theorem currentElementRangeAndParity : Obligations.CurrentElementRangeAndParity :=
  fun _ _ hwf hactive => (mem_seqOf ..).1 (List.mem_of_getElem? (Enumerator.seqOf_getElem?_index hwf hactive))

/-- Settles O29: the pull answers the element at the index, and the advance goes to the next index or to the end. -/
theorem nxtWalksTheSequence : Obligations.NxtWalksTheSequence := by
  intro s hwf hactive
  refine ⟨_, _, nxtAnswersTheCurrentElement s hactive, Enumerator.seqOf_getElem?_index hwf hactive, rfl, rfl, rfl, rfl, rfl,
    fun hnext => ?_, fun hlast => Enumerator.advance_at_last hwf hactive hlast⟩
  obtain ⟨_, hmoved⟩ | ⟨hlast, _⟩ := Enumerator.advance_cases hwf hactive
  · exact hmoved
  · omega

end Sys2Proof.Machine

/-!
PROOFS. The statement of 40_enumerator about pulls after a start (R114, R119): the block's registers and a stack of frames both
yield the elements that remain and then nothing (`drained`). For the stack that the registers stand for, `frameStackAt` also has
the base frame past its last entry, a position that the registers have left and the stack has not: the pull on it hands over at
the deepest level in its same-parity half (`pull_frameStackAt_handOver`), as the advance of the registers has done before.
-/

namespace Sys2Proof.Machine

/-! ## Positions that stand at an element -/

/-- An active position whose index designates an element is good (10_state R29). -/
theorem Enumerator.wf_of_index_lt {p : Params} {e : Enumerator} (hactive : e.st = .active)
    (hx : exceeds p e.ew = false) (hindex : e.index < seqCount e.ew e.ep) : e.wf p := by
  rw [Enumerator.index] at hindex
  have hnonempty : ¬ (e.ew = 0 ∧ e.ep = .odd) := by
    rintro ⟨hw, hodd⟩
    rw [hw, hodd, seqCount] at hindex
    omega
  have hregisters : e.ph < 2 ^ (e.ew - 2) ∧ e.bi.toNat < e.rowLen := by
    obtain hw | hw := Nat.lt_or_ge e.ew 2
    · have hcount := seqCount_narrow hw e.ep
      have hph : e.ph = 0 := by omega
      have hlt : e.ph < 2 ^ (e.ew - 2) := by rw [hph]; exact Nat.two_pow_pos _
      have hrow : e.rowParity = e.ep := by rw [Enumerator.rowParity_eq hlt, hph]; rfl
      have hlen : e.rowLen ≠ 0 := by rwa [Enumerator.rowLen, Enumerator.baseWidth, hrow, Ne, romLen_base]
      exact ⟨hlt, by omega⟩
    · rw [seqCount_wide hw] at hindex
      rw [Enumerator.rowLen_two hw]
      omega
  refine ⟨fun h => absurd hactive h, fun _ => hx, fun _ j hj => ?_, fun _ => hregisters.2, fun _ => hnonempty⟩
  have habove : e.ph < 2 ^ (j - 3) := hregisters.1.trans_le (Nat.pow_le_pow_right (by omega) (by omega))
  simp [Enumerator.phase, Nat.testBit_lt_two_pow habove]

/-- A position without an element to yield is good when its registers are cleared. -/
theorem Enumerator.exhausted_wf (p : Params) : Enumerator.exhausted.wf p := by
  constructor <;> simp

theorem Enumerator.first_wf {p : Params} {w : Nat} {q : Parity} (hx : exceeds p w = false)
    (hne : ¬ (w = 0 ∧ q = .odd)) : (Enumerator.first w q).wf p := by
  refine Enumerator.wf_of_index_lt rfl hx ?_
  cases w with
  | zero =>
    cases q with
    | even => decide
    | odd => exact absurd ⟨rfl, rfl⟩ hne
  | succ w => exact Nat.two_pow_pos w

theorem Enumerator.advance_wf {p : Params} {e : Enumerator} (hwf : e.wf p) (hactive : e.st = .active) :
    e.advance.wf p := by
  obtain ⟨hnext, hst, hew, hep, hindex⟩ | ⟨_, hend⟩ := Enumerator.advance_cases hwf hactive
  · exact Enumerator.wf_of_index_lt hst (hew ▸ hwf.width hactive) (by rwa [hindex, hew, hep])
  · exact hend ▸ Enumerator.exhausted_wf p

/-- The position `e` has the elements `l` still to yield. -/
def Enumerator.StandsAt (p : Params) (e : Enumerator) (l : List Nat) : Prop :=
  (e.wf p ∧ e.st = .active ∧ l = (seqOf e.ew e.ep).drop e.index) ∨ (e = Enumerator.exhausted ∧ l = [])

theorem Enumerator.start_standsAt {p : Params} {w : Nat} (hx : exceeds p w = false) (q : Parity) :
    (Enumerator.start w q).StandsAt p (seqOf w q) := by
  obtain ⟨rfl, rfl, hstart⟩ | ⟨hne, hstart⟩ := Enumerator.start_cases w q
  · exact .inr ⟨hstart, seqOf_zero_odd⟩
  · rw [hstart]
    exact .inl ⟨Enumerator.first_wf hx hne, rfl, rfl⟩

/-- The advance leaves the elements after the current one. -/
theorem Enumerator.advance_standsAt {p : Params} {e : Enumerator} (hwf : e.wf p) (hactive : e.st = .active) :
    e.advance.StandsAt p ((seqOf e.ew e.ep).drop (e.index + 1)) := by
  obtain ⟨_, hst, hew, hep, hindex⟩ | ⟨hlast, hend⟩ := Enumerator.advance_cases hwf hactive
  · exact .inl ⟨Enumerator.advance_wf hwf hactive, hst, by rw [hew, hep, hindex]⟩
  · exact .inr ⟨hend, List.drop_eq_nil_of_le (by rw [length_seqOf, hlast])⟩

/-- A pull answers the first element that remains, or `END` when none does, and leaves the others. -/
theorem pullElement_of_standsAt {s : State} {l : List Nat} (h : s.enum.StandsAt s.params l) :
    (pullElement s).rsp = s.rsp ++ [frameResponse l.head?] ∧
      (pullElement s).enum.StandsAt (pullElement s).params l.tail := by
  obtain ⟨hwf, hactive, rfl⟩ | ⟨hend, rfl⟩ := h
  · rw [pullElement_of_active hactive, List.head?_drop, Enumerator.seqOf_getElem?_index hwf hactive, List.tail_drop]
    exact ⟨rfl, Enumerator.advance_standsAt hwf hactive⟩
  · have hpull : pullElement s = respond .endOfSequence 0 0 s := by simp [pullElement, hend]
    rw [hpull]
    exact ⟨rfl, .inr ⟨hend, rfl⟩⟩

/-! ## Any number of pulls -/

/-- What `k` pulls answer when the elements `l` remain: the elements, and then nothing. -/
def drained (k : Nat) (l : List Nat) : List (Option Nat) := (l.map some ++ List.replicate k none).take k

@[simp] theorem drained_zero (l : List Nat) : drained 0 l = [] := by simp [drained]

theorem drained_succ (k : Nat) (l : List Nat) : drained (k + 1) l = l.head? :: drained k l.tail := by
  cases l with
  | nil => simp [drained, List.replicate_succ]
  | cons v l =>
    simp only [drained, List.map_cons, List.cons_append, List.take_succ_cons, List.head?_cons, List.tail_cons]
    rw [List.replicate_succ', ← List.append_assoc, List.take_append_of_le_length (by simp)]

theorem drained_responses (k : Nat) (l : List Nat) :
    (drained k l).map frameResponse =
      (l.map (fun v => (⟨.data, v, 0⟩ : Response)) ++ List.replicate k (⟨.endOfSequence, 0, 0⟩ : Response)).take k := by
  simp [drained, List.map_take, frameResponse, Function.comp_def]

/-- The block yields the elements that remain. -/
theorem pulls_of_standsAt (k : Nat) {s : State} {l : List Nat} (h : s.enum.StandsAt s.params l) :
    ∃ t, pulls k s = .next t ∧ t.rsp = s.rsp ++ (drained k l).map frameResponse := by
  induction k generalizing s l with
  | zero => exact ⟨s, rfl, by simp⟩
  | succ k ih =>
    obtain ⟨hrsp, hrest⟩ := pullElement_of_standsAt h
    obtain ⟨t, hpulls, ht⟩ := ih hrest
    exact ⟨t, (pulls_succ k s).trans hpulls, by simp [ht, hrsp, drained_succ]⟩

/-- A stack of frames yields the elements that remain. -/
theorem FrameStack.answers_eq_drained (k : Nat) (t : FrameStack) : FrameStack.answers k t = drained k t.remaining := by
  induction k generalizing t with
  | zero => simp [FrameStack.answers]
  | succ k ih =>
    obtain ⟨hhead, htail⟩ := FrameStack.pull_pullsHead t
    rw [FrameStack.answers, ih, hhead, htail, drained_succ]

/-- All of its sequence remains to a new stack. -/
theorem FrameStack.remaining_create (w : Nat) (p : Parity) : (FrameStack.create w p).remaining = seqOf w p := by
  induction w using Nat.strong_induction_on generalizing p with
  | _ w ih =>
    match w with
    | 0 | 1 | 2 => rfl
    | w + 3 => rw [FrameStack.create, FrameStack.remaining, ih (w + 2) (by omega), seqOf]; rfl

/-! ## The stack of a setting of the phases -/

/-- The stack of level `j`, asked for parity `p`, with the frames in the halves that `phase` says and the base frame at index
`next`, which may be past the row's end. -/
def frameStackAt (phase : Nat → Bool) (next : Nat) : Nat → Parity → FrameStack
  | 0, p => .base 0#2 p next
  | 1, p => .base 1#2 p next
  | 2, p => .base 2#2 p next
  | j + 3, p =>
    if phase (j + 3) then .frame (j + 3) p .flipped (frameStackAt phase next (j + 2) p.flip)
    else .frame (j + 3) p .same (frameStackAt phase next (j + 2) p)

theorem Enumerator.framesFrom_eq (e : Enumerator) (j : Nat) (p : Parity) :
    e.framesFrom j p = frameStackAt e.phase e.bi.toNat j p := by
  induction j using Nat.strong_induction_on generalizing p with
  | _ j ih =>
    match j with
    | 0 | 1 | 2 => rfl
    | j + 3 => rw [Enumerator.framesFrom, frameStackAt, ih (j + 2) (by omega), ih (j + 2) (by omega)]

section
variable {phase : Nat → Bool} {next n : Nat}

theorem frameStackAt_flipped (h : phase (n + 3) = true) (p : Parity) :
    frameStackAt phase next (n + 3) p = .frame (n + 3) p .flipped (frameStackAt phase next (n + 2) p.flip) := by
  rw [frameStackAt, if_pos h]

theorem frameStackAt_same (h : phase (n + 3) = false) (p : Parity) :
    frameStackAt phase next (n + 3) p = .frame (n + 3) p .same (frameStackAt phase next (n + 2) p) := by
  rw [frameStackAt, if_neg (by simp [h])]

/-- With every frame in its same-parity half and the base frame at its first entry, the stack is a new one. -/
theorem frameStackAt_eq_create (h : ∀ i, i ≤ n + 2 → phase i = false) (p : Parity) :
    frameStackAt phase 0 (n + 2) p = FrameStack.create (n + 2) p := by
  induction n with
  | zero => rfl
  | succ n ih => rw [frameStackAt_same (h _ le_rfl), ih fun i hi => h i (by omega), FrameStack.create]

/-- A pull within the base row moves the base frame alone. -/
theorem pull_frameStackAt_inRow (hnext : next < 2) (p : Parity) :
    ∃ v, (frameStackAt phase next (n + 2) p).pull = (some v, frameStackAt phase (next + 1) (n + 2) p) := by
  induction n generalizing p with
  | zero =>
    have hlen : next < (romRow 2#2 p).length := hnext.trans_eq (length_seqOf 2 p).symm
    exact ⟨(romRow 2#2 p)[next], by simp only [frameStackAt, FrameStack.pull_base, pullBase, List.getElem?_eq_getElem hlen]⟩
  | succ n ih =>
    cases h : phase (n + 3) with
    | true =>
      obtain ⟨v, hv⟩ := ih p.flip
      exact ⟨_, by rw [frameStackAt_flipped h, frameStackAt_flipped h, FrameStack.pull_flipped, hv, answerFlipped_some]⟩
    | false =>
      obtain ⟨v, hv⟩ := ih p
      exact ⟨_, by rw [frameStackAt_same h, frameStackAt_same h, FrameStack.pull_same, hv, answerSame_some]⟩

/-- Past the row's end, with every frame in its flipped half, the stack is spent and the outermost frame reports it. -/
theorem pull_frameStackAt_spent (h : ∀ i, 3 ≤ i → i ≤ n + 2 → phase i = true) (p : Parity) :
    ∃ u, (frameStackAt phase 2 (n + 2) p).pull = (none, u) ∧ (1 ≤ n → u.outer = some .exhausted) := by
  induction n generalizing p with
  | zero =>
    refine ⟨.base 2#2 p 2, ?_, by omega⟩
    cases p <;> rfl
  | succ n ih =>
    obtain ⟨u, hu, _⟩ := ih (fun i h3 hi => h i h3 (by omega)) p.flip
    refine ⟨_, by rw [frameStackAt_flipped (h _ (by omega) le_rfl), FrameStack.pull_flipped, hu, answerFlipped_none],
      fun _ => rfl⟩

/-- Past the row's end the pull hands over at the deepest level in its same-parity half, so it is the pull on the stack that
has that level in its flipped half over a new stack (40_enumerator R110, R119). -/
theorem pull_frameStackAt_handOver {moved : Nat → Bool} {j0 : Nat} (h3 : 3 ≤ j0) (hj : j0 ≤ n + 2)
    (hsame : phase j0 = false) (hbelow : ∀ i, 3 ≤ i → i < j0 → phase i = true)
    (hmoved : ∀ i, moved i = if i < j0 then false else if i = j0 then true else phase i) (p : Parity) :
    (frameStackAt phase 2 (n + 2) p).pull = (frameStackAt moved 0 (n + 2) p).pull := by
  induction n generalizing p with
  | zero => omega
  | succ n ih =>
    obtain rfl | hlt : j0 = n + 3 ∨ j0 < n + 3 := by omega
    · have hflipped : moved (n + 3) = true := by simp [hmoved]
      obtain ⟨u, hu, _⟩ := pull_frameStackAt_spent (n := n) (fun i h3 hi => hbelow i h3 (by omega)) p
      rw [frameStackAt_same hsame, frameStackAt_flipped hflipped, FrameStack.pull_same, FrameStack.pull_flipped, hu,
        answerSame_none, frameStackAt_eq_create (fun i hi => by rw [hmoved, if_pos (by omega)]), FrameStack.pull_create]
      rfl
    · have hkept : moved (n + 3) = phase (n + 3) := by rw [hmoved, if_neg (by omega), if_neg (by omega)]
      cases h : phase (n + 3) with
      | true =>
        rw [frameStackAt_flipped h, frameStackAt_flipped (hkept.trans h), FrameStack.pull_flipped, FrameStack.pull_flipped,
          ih (by omega)]
      | false =>
        rw [frameStackAt_same h, frameStackAt_same (hkept.trans h), FrameStack.pull_same, FrameStack.pull_same,
          ih (by omega)]

end

/-! ## The stack of the registers -/

/-- The stack that the phases and the base index stand for has left the elements before their index. -/
theorem Enumerator.remaining_framesFrom (e : Enumerator) (n : Nat) (p : Parity) :
    (e.framesFrom (n + 2) p).remaining = (seqOf (n + 2) p).drop (2 * (e.ph % 2 ^ n) + e.bi.toNat) := by
  induction n generalizing p with
  | zero => simp only [pow_zero, Nat.mod_one, Nat.mul_zero, Nat.zero_add]; rfl
  | succ n ih =>
    have hhalf : (seqOf (n + 2) p).length = 2 * 2 ^ n := by rw [length_seqOf, seqCount_wide (by omega)]; rfl
    have hmod := Nat.mod_lt e.ph (Nat.two_pow_pos n)
    have hbi := e.bi.isLt
    have hphase : e.phase (n + 3) = e.ph.testBit n := by rw [Nat.add_comm, Enumerator.phase_level]
    rw [Enumerator.framesFrom, seqOf, Nat.mod_pow_succ, hphase, Nat.testBit_eq_decide_div_mod_eq]
    obtain hbit | hbit := Nat.mod_two_eq_zero_or_one (e.ph / 2 ^ n)
    · rw [hbit, Nat.mul_zero, Nat.add_zero, if_neg (by decide), FrameStack.remaining, ih,
        List.drop_append_of_le_length (by omega)]
      rfl
    · have hindex : 2 * (e.ph % 2 ^ n + 2 ^ n * 1) + e.bi.toNat =
          (seqOf (n + 2) p).length + (2 * (e.ph % 2 ^ n) + e.bi.toNat) := by rw [hhalf]; omega
      rw [hbit, if_pos (by decide), FrameStack.remaining, ih, hindex, List.drop_length_add_append, List.map_drop]
      rfl

section
variable {p : Params} {e : Enumerator} (hwf : e.wf p) (hactive : e.st = .active)
include hwf hactive

theorem Enumerator.remaining_frames : e.frames.remaining = (seqOf e.ew e.ep).drop e.index := by
  rw [Enumerator.frames, Enumerator.index]
  obtain hw | hw := Nat.lt_or_ge e.ew 2
  · obtain ⟨hph, _, _⟩ := Enumerator.index_narrow hwf hactive hw
    rw [hph, Nat.mul_zero, Nat.zero_add]
    obtain hw | hw : e.ew = 0 ∨ e.ew = 1 := by omega
    all_goals rw [hw]; rfl
  · have hph := Enumerator.ph_lt hwf hactive
    obtain ⟨n, hn⟩ := Nat.exists_eq_add_of_le' hw
    rw [hn, Nat.add_sub_cancel] at hph
    rw [hn, Enumerator.remaining_framesFrom, Nat.mod_eq_of_lt hph]

/-- The stack of the registers answers the current element. -/
theorem Enumerator.frames_pull_fst : e.frames.pull.1 = some e.cur := by
  obtain ⟨hhead, _⟩ := FrameStack.pull_pullsHead e.frames
  rw [hhead, Enumerator.remaining_frames hwf hactive, List.head?_drop, Enumerator.seqOf_getElem?_index hwf hactive]

/-- The pull after the current element's is the pull on the stack of the advanced registers; after the last element the stack
reports exhaustion one pull later than the registers are `EXHAUSTED` (40_enumerator R119). -/
theorem Enumerator.frames_pull_snd :
    (e.advance.st = .active ∧ e.frames.pull.2.pull = e.advance.frames.pull) ∨
    (e.advance = Enumerator.exhausted ∧ e.frames.pull.2.pull.1 = none ∧
      (3 ≤ e.ew → e.frames.pull.2.outer = some .flipped ∧ e.frames.pull.2.pull.2.outer = some .exhausted)) := by
  obtain hw | hw := Nat.lt_or_ge e.ew 2
  · obtain ⟨hph, hbi, hcount⟩ := Enumerator.index_narrow hwf hactive hw
    refine .inr ⟨Enumerator.advance_at_last hwf hactive (by rw [Enumerator.index, hph, hbi, hcount]; rfl), ?_, by omega⟩
    rw [Enumerator.frames]
    obtain hw | hw : e.ew = 0 ∨ e.ew = 1 := by omega
    all_goals
      rw [hw]
      simp only [Enumerator.framesFrom, hbi]
      cases e.ep <;> decide
  obtain ⟨n, hn⟩ := Nat.exists_eq_add_of_le' hw
  obtain ⟨v, hv⟩ := pull_frameStackAt_inRow (phase := e.phase) (n := n) e.bi.isLt e.ep
  have hleft : e.frames.pull.2 = frameStackAt e.phase (e.bi.toNat + 1) (n + 2) e.ep := by
    rw [Enumerator.frames, Enumerator.framesFrom_eq, hn, hv]
  rw [hleft]
  obtain hrow | hrow := Decidable.em (e.bi.toNat + 1 < e.rowLen)
  · left
    rw [Enumerator.advance_in_row hrow, Enumerator.frames, Enumerator.framesFrom_eq, hn,
      Enumerator.bi_zero_of_in_row hrow]
    exact ⟨hactive, rfl⟩
  have hbi : e.bi.toNat = 1 := by
    rw [Enumerator.rowLen_two hw] at hrow
    have := e.bi.isLt
    omega
  rw [hbi]
  cases hlevel : e.deepestUnflipped with
  | some j0 =>
    left
    obtain ⟨h3, hj, hsame, hbelow⟩ := Enumerator.deepestUnflipped_eq_some_iff.1 hlevel
    rw [Enumerator.advance_of_level hrow hlevel, Enumerator.frames, Enumerator.framesFrom_eq]
    refine ⟨hactive, ?_⟩
    simp only [hn]
    exact pull_frameStackAt_handOver h3 (hn ▸ hj) hsame hbelow (phase_raisePhase e h3) e.ep
  | none =>
    right
    have hall : ∀ i, 3 ≤ i → i ≤ n + 2 → e.phase i = true := fun i h3 hi => by
      simpa using find?_range'.2 hlevel i h3 (by omega)
    obtain ⟨u, hu, houter⟩ := pull_frameStackAt_spent hall e.ep
    refine ⟨Enumerator.advance_of_no_level hrow hlevel, by rw [hu], fun h3 => ⟨?_, by rw [hu]; exact houter (by omega)⟩⟩
    obtain ⟨k, rfl⟩ : ∃ k, n = k + 1 := Nat.exists_eq_succ_of_ne_zero (by omega)
    rw [frameStackAt_flipped (hall _ (by omega) le_rfl)]
    rfl

end

/-- Settles O32: the registers and a new stack of frames both yield the sequence, and pull by pull the stack of the registers
follows them, with the hand-over one pull later. -/
theorem drainYieldsTheSequence : Obligations.DrainYieldsTheSequence := by
  refine ⟨fun w p s hx => ⟨_, exec_startCommand_of_accepted hx p, fun k => ?_⟩, fun p e hwf hactive => ?_⟩
  · obtain ⟨t, hpulls, ht⟩ := pulls_of_standsAt k
      (s := { s with enum := Enumerator.start w p, waiting := none, rsp := s.rsp ++ [⟨.ok, 0, 0⟩] })
      (Enumerator.start_standsAt hx p)
    refine ⟨t, hpulls, by rw [ht, drained_responses], ?_⟩
    rw [ht, FrameStack.answers_eq_drained, FrameStack.remaining_create]
  · refine ⟨Enumerator.frames_pull_fst hwf hactive, ?_⟩
    obtain ⟨hst, hpull⟩ | ⟨hend, hspent⟩ := Enumerator.frames_pull_snd hwf hactive
    · exact ⟨fun _ => hpull, fun h => absurd hst h⟩
    · rw [hend]
      exact ⟨fun h => (by cases h), fun _ => ⟨rfl, hspent⟩⟩

end Sys2Proof.Machine

/-!
PROOFS. The statements about a step and about the frame of the six commands (30_encoding R70, 10_state R27, R35, 70_reset R190,
R200, 60_exceptions R160, R180, R181), and which command can return which status (30_encoding R81). What a command leaves as it
was is said once (`Framed`, `exec_framed`), and so is what it can answer (`CanAnswer`, `exec_canAnswer`).
-/

namespace Sys2Proof.Machine

/-! ## The frame of the commands -/

/-- What the six commands leave unchanged from `s` to `t`, in the words of `Obligations.CommandsFrame`. -/
def Framed (s t : State) : Prop :=
  t.params = s.params ∧ t.host = s.host ∧ t.freeCtr = s.freeCtr ∧ s.rsp <+: t.rsp ∧ s.req <+: t.req ∧ t.ent <:+ s.ent

/-- A request is added to those already sent, if it is not outstanding. -/
theorem prefix_sendRequest_req (i : Instr) (count : Nat) (s : State) : s.req <+: (sendRequest i count s).req := by
  unfold sendRequest
  by_cases hout : s.waiting = some i
  · rw [if_pos hout]
  · rw [if_neg hout]
    exact List.prefix_append _ _

theorem sample_framed (i : Instr) (n : Nat) (want : Parity) (zd : Bool) (s : State) :
    Framed s (sample i n want zd s) := by
  have hreq := prefix_sendRequest_req i (drawCount n) s
  obtain ⟨_, h⟩ | ⟨_, rest, hent, h⟩ | ⟨_, rest, hent, h⟩ := sample_cases i n want zd s <;> rw [h]
  · exact ⟨sendRequest_params .., sendRequest_host .., sendRequest_freeCtr .., by simp, hreq, by simp⟩
  · exact ⟨sendRequest_params .., sendRequest_host .., sendRequest_freeCtr .., by simp, hreq, by simp [hent]⟩
  · exact ⟨sendRequest_params .., sendRequest_host .., sendRequest_freeCtr .., by simp, hreq, by simp [hent]⟩

theorem exec_framed {i : Instr} {s t : State} (hexec : exec i s = .next t) : Framed s t := by
  obtain ⟨st, pat, e, h⟩ | ⟨n, _, _, ⟨az, _, h⟩ | ⟨_, h⟩⟩ := exec_cases i s <;> cases h.symm.trans hexec
  · exact ⟨rfl, rfl, rfl, List.prefix_append _ _, List.prefix_rfl, List.suffix_rfl⟩
  · exact sample_framed ..
  · exact sample_framed ..

/-- Settles O15: a response that is fixed touches `S` and the responses alone, and a draw has the frame of its request. -/
theorem commandsFrame : Obligations.CommandsFrame := fun _ _ _ => exec_framed

/-! ## The end of a command -/

/-- Settles O14: of the ways a command can go, only a draw without an answer gives no response. -/
theorem oneResponsePerCommand : Obligations.OneResponsePerCommand := by
  intro i s
  have hdraw : ∀ n want zd, ((sample i n want zd s).waiting = none ∧ ∃ r, (sample i n want zd s).rsp = s.rsp ++ [r]) ∨
      ((sample i n want zd s).waiting = some i ∧ (sample i n want zd s).rsp = s.rsp ∧ s.ent = []) := by
    intro n want zd
    obtain ⟨hent, h⟩ | ⟨_, _, _, h⟩ | ⟨_, _, _, h⟩ := sample_cases i n want zd s <;> rw [h]
    · exact .inr ⟨rfl, sendRequest_rsp .., hent⟩
    · exact .inl ⟨rfl, by simp⟩
    · exact .inl ⟨rfl, by simp⟩
  obtain ⟨st, pat, e, h⟩ | ⟨n, _, _, ⟨az, _, h⟩ | ⟨_, h⟩⟩ := exec_cases i s
  · exact ⟨_, h, .inl ⟨rfl, _, rfl⟩⟩
  · exact ⟨_, h, hdraw _ _ _⟩
  · exact ⟨_, h, hdraw _ _ _⟩

theorem exists_exec_eq_next (i : Instr) (s : State) : ∃ t, exec i s = .next t := by
  obtain ⟨t, h, _⟩ := oneResponsePerCommand i s
  exact ⟨t, h⟩

/-- Settles O13: each thing that a step can be answers a next state. -/
theorem noStepStops : Obligations.NoStepStops := by
  intro s
  obtain ⟨rest, _, h⟩ | ⟨i, _, _, h⟩ | ⟨_, rest, i, _, _, _, h⟩ | ⟨_, rest, _, _, _, _, h⟩ | ⟨_, _, h⟩ := step_cases s
  · exact ⟨_, h⟩
  · rw [h]; exact exists_exec_eq_next i s
  · rw [h]; exact exists_exec_eq_next i _
  · exact ⟨_, h⟩
  · exact ⟨_, h⟩

/-! ## What a step does next -/

/-- Settles O8: of the things that a step can be, a word that decodes leaves one. -/
theorem stepRunsDecodedCommand : Obligations.StepRunsDecodedCommand := by
  intro s cw rest i hw hh hdecode _
  simp only [step, nextAction, hw, hh, hdecode]

/-- Settles O9: with nothing to take, the next action is to rest. -/
theorem nothingPresentedChangesNothing : Obligations.NothingPresentedChangesNothing := by
  intro s hw hh
  simp only [step, nextAction, hw, hh]

theorem step_of_reset {s : State} {rest : List HostInput} (hh : s.host = .reset :: rest) :
    step s = .next (takeReset { s with host := rest }) := by
  simp only [step, nextAction, hh]

/-- While a command is in progress only a reset comes before it. -/
theorem step_of_waiting {s : State} {i : Instr} (hw : s.waiting = some i) (hh : ∀ rest, s.host ≠ .reset :: rest) :
    step s = exec i s := by
  obtain ⟨rest, hreset, _⟩ | ⟨j, hwait, _, h⟩ | ⟨_, _, _, hidle, _⟩ | ⟨_, _, _, hidle, _⟩ | ⟨hidle, _⟩ := step_cases s
  · exact absurd hreset (hh rest)
  · obtain rfl : i = j := by simpa [hw] using hwait
    exact h
  all_goals simp [hw] at hidle

/-- Settles O10: the step is the command in progress, and no command takes a host input. -/
theorem commandInProgressHoldsTheChannel : Obligations.CommandInProgressHoldsTheChannel := by
  intro s i hw hh
  have hstep := step_of_waiting hw hh
  refine ⟨hstep, fun t ht => ?_⟩
  obtain ⟨_, hhost, _⟩ := exec_framed (hstep.symm.trans ht)
  exact hhost

/-- Settles O11, by whether a draw is outstanding. -/
theorem resetIsTotal : Obligations.ResetIsTotal := by
  intro s rest hh
  refine ⟨_, step_of_reset hh, ?_⟩
  obtain ⟨hw, h⟩ | ⟨i, hw, h⟩ := takeReset_cases { s with host := rest } <;> rw [h]
  · exact ⟨rfl, hw, rfl, rfl, rfl, rfl, fun _ => ⟨rfl, rfl⟩⟩
  · exact ⟨rfl, rfl, rfl, rfl, rfl, rfl, fun hidle => by simp [hidle] at hw⟩

/-- Settles O12: the phase bits are those of the number 0. -/
theorem resetValues : Obligations.ResetValues :=
  fun _ => ⟨rfl, rfl, rfl, fun j => by simp [Enumerator.phase], rfl, rfl⟩

/-- No step writes the parameters (10_state R27(d)). -/
theorem step_params {s t : State} (hstep : step s = .next t) : t.params = s.params := by
  obtain ⟨rest, hh, _⟩ | ⟨i, _, _, h⟩ | ⟨_, rest, i, _, _, _, h⟩ | ⟨_, rest, _, _, _, _, h⟩ | ⟨_, _, h⟩ := step_cases s
  · obtain ⟨u, h, _, _, _, _, _, hparams, _⟩ := resetIsTotal s rest hh
    cases h.symm.trans hstep
    exact hparams
  · obtain ⟨hparams, _⟩ := exec_framed (h.symm.trans hstep)
    exact hparams
  · obtain ⟨hparams, _⟩ := exec_framed (h.symm.trans hstep)
    exact hparams
  · cases h.symm.trans hstep
    rfl
  · cases h.symm.trans hstep
    rfl

/-- Settles O60, from what a step and what a command can do to `S`. -/
theorem onlyEnumeratorCommandsAndResetMoveS : Obligations.OnlyEnumeratorCommandsAndResetMoveS := by
  refine fun s t hstep => ⟨step_params hstep, fun hne => ?_⟩
  obtain hsame | hreset | ⟨i, u, hruns, hu, hexec⟩ := step_enum_cases hstep
  · exact absurd hsame hne
  · exact .inl hreset
  refine .inr ⟨i, hruns, ?_⟩
  obtain hsame | ⟨rfl, _⟩ | ⟨rfl, _⟩ | ⟨w, p, rfl, _⟩ := exec_enum_cases hexec
  · exact absurd (hsame.trans hu) hne
  · exact .inr (.inl rfl)
  · exact .inl rfl
  · cases p with
    | even => exact .inr (.inr ⟨w, .inl rfl⟩)
    | odd => exact .inr (.inr ⟨w, .inr rfl⟩)

/-! ## The responses -/

/-- The two refusals of an argument (60_exceptions R163 to R165). -/
def argumentRefusals : List Response := [⟨.errInvalidArgument, 0, 0⟩, ⟨.errRange, 0, 0⟩]

/-- `r` is the response of an accepted draw in the state `s`. -/
def DrawAnswers (s : State) (r : Response) : Prop :=
  ∃ (n : Nat) (want : Parity) (zd : Bool),
    1 ≤ n ∧ exceeds s.params n = false ∧ drawResponses s.params n want zd s.ent.head? = [r]

/-- The responses that a command can give in the state `s`. -/
def CanAnswer (s : State) (r : Response) : Instr → Prop
  | .aev _ | .aod _ => r = ⟨.ok, 0, 0⟩ ∨ r ∈ argumentRefusals
  | .rev _ az => r = ⟨.data, if az then 3 else 0, 0⟩ ∨ r ∈ argumentRefusals ∨ DrawAnswers s r
  | .rod _ => r ∈ argumentRefusals ∨ DrawAnswers s r
  | .nxt => (s.enum.st = .active ∧ r = ⟨.data, s.enum.cur, 0⟩) ∨ r = ⟨.endOfSequence, 0, 0⟩ ∨ r = ⟨.errNoSeq, 0, 0⟩
  | .stp => r = ⟨.ok, 0, 0⟩

theorem response_of_respond {st : Status} {pat ecode : Nat} {s u : State} {r : Response} (hu : u.rsp = s.rsp)
    (hr : (respond st pat ecode u).rsp = s.rsp ++ [r]) : r = ⟨st, pat, ecode⟩ := by
  rw [respond_rsp, hu] at hr
  exact (List.singleton_inj.1 (List.append_cancel_left hr)).symm

theorem invalidArgument_mem_refusals {s : State} {r : Response}
    (hr : (raise .invalidArgument s).rsp = s.rsp ++ [r]) : r ∈ argumentRefusals :=
  response_of_respond rfl hr ▸ List.mem_cons_self

theorem range_mem_refusals {s : State} {r : Response} (hr : (raise .range s).rsp = s.rsp ++ [r]) :
    r ∈ argumentRefusals :=
  response_of_respond rfl hr ▸ List.mem_cons_of_mem _ List.mem_cons_self

theorem startSequence_response {w : Int} {p : Parity} {s : State} {r : Response}
    (hr : (startSequence w p s).rsp = s.rsp ++ [r]) : r = ⟨.ok, 0, 0⟩ ∨ r ∈ argumentRefusals := by
  obtain ⟨_, h⟩ | ⟨_, _, h⟩ | ⟨_, _, h⟩ := startSequence_cases w p s <;> rw [h] at hr
  · exact .inr (invalidArgument_mem_refusals hr)
  · exact .inr (range_mem_refusals hr)
  · exact .inl (response_of_respond rfl hr)

theorem sample_drawAnswers {i : Instr} {n : Nat} {want : Parity} {zd : Bool} {s : State} {r : Response} (hn : 1 ≤ n)
    (hx : exceeds s.params n = false) (hr : (sample i n want zd s).rsp = s.rsp ++ [r]) : DrawAnswers s r :=
  ⟨n, want, zd, hn, hx, List.append_cancel_left ((sample_rsp ..).symm.trans hr)⟩

/-- Every response of a command is one that it can give. -/
theorem exec_canAnswer {i : Instr} {s t : State} {r : Response} (hexec : exec i s = .next t)
    (hr : t.rsp = s.rsp ++ [r]) : CanAnswer s r i := by
  cases i with
  | aev w | aod w =>
    cases hexec
    exact startSequence_response hr
  | rev n az =>
    obtain ⟨_, h⟩ | ⟨_, _, h⟩ | ⟨_, _, h⟩ | ⟨h1, hx, h⟩ := execRev_cases n az s <;> cases h.symm.trans hexec
    · exact .inr (.inl (invalidArgument_mem_refusals hr))
    · exact .inr (.inl (range_mem_refusals hr))
    · exact .inl (response_of_respond rfl hr)
    · exact .inr (.inr (sample_drawAnswers (by omega) (by rwa [Int.toNat_of_nonneg (by omega)]) hr))
  | rod n =>
    obtain ⟨_, h⟩ | ⟨_, _, h⟩ | ⟨h1, hx, h⟩ := execRod_cases n s <;> cases h.symm.trans hexec
    · exact .inl (invalidArgument_mem_refusals hr)
    · exact .inl (range_mem_refusals hr)
    · exact .inr (sample_drawAnswers (by omega) (by rwa [Int.toNat_of_nonneg (by omega)]) hr)
  | nxt =>
    cases hexec
    obtain ⟨_, h⟩ | ⟨_, h⟩ | ⟨hactive, h⟩ := pullElement_cases s <;> rw [h] at hr
    · exact .inr (.inr (response_of_respond rfl hr))
    · exact .inr (.inl (response_of_respond rfl hr))
    · exact .inl ⟨hactive, response_of_respond rfl hr⟩
  | stp =>
    cases hexec
    exact response_of_respond rfl hr

theorem status_of_refusal {r : Response} (h : r ∈ argumentRefusals) :
    r.status = .errInvalidArgument ∨ r.status = .errRange := by
  obtain rfl | rfl : r = ⟨.errInvalidArgument, 0, 0⟩ ∨ r = ⟨.errRange, 0, 0⟩ := by simpa [argumentRefusals] using h
  · exact .inl rfl
  · exact .inr rfl

theorem status_of_drawAnswers {s : State} {r : Response} (h : DrawAnswers s r) :
    r.status = .data ∨ r.status = .errEntropy := by
  obtain ⟨_, _, _, _, _, hanswer⟩ := h
  exact (drawResponses_eq_singleton hanswer).imp_right And.left

/-- Settles O23, from the responses that each command can give. -/
theorem statusesOfEachCommand : Obligations.StatusesOfEachCommand := by
  intro i s t r hexec hr
  have hanswer := exec_canAnswer hexec hr
  cases i with
  | aev w | aod w =>
    obtain rfl | h := hanswer
    · simp
    · obtain h | h := status_of_refusal h <;> simp [h]
  | rev n az =>
    obtain rfl | h | h := hanswer
    · simp
    · obtain h | h := status_of_refusal h <;> simp [h]
    · obtain h | h := status_of_drawAnswers h <;> simp [h]
  | rod n =>
    obtain h | h := hanswer
    · obtain h | h := status_of_refusal h <;> simp [h]
    · obtain h | h := status_of_drawAnswers h <;> simp [h]
  | nxt => obtain ⟨_, rfl⟩ | rfl | rfl := hanswer <;> simp
  | stp => exact congrArg Response.status hanswer

end Sys2Proof.Machine

/-!
PROOFS. The statements of 41_sampler: the draw in full (R138, R139), when it is made and how it waits (R132, 20_memory R56,
70_reset R208), and what the correction does (R140, R141, R143). On a value of exactly `n` bits the correction has three cases
(`correct_cases`): the value itself, the value with its lowest set bit cleared, or, from `2^(n-1)` alone, the zero of `REV`.
-/

namespace Sys2Proof.Machine

/-! ## REV 0 -/

/-- Settles O46: 0 is above no limit, and `REV 0` does not draw. -/
theorem revOfLengthZero : Obligations.RevOfLengthZero := by
  intro az s
  simp only [exec, execRev, exceeds_zero]
  rfl

/-! ## The draw in full -/

theorem exec_rev_of_accepted {n : Nat} (hn : 1 ≤ n) {s : State} (hx : exceeds s.params n = false) (az : Bool) :
    exec (.rev n az) s = .next (sample (.rev n az) n .even (revZeroDisallowed s.params az) s) := by
  obtain ⟨hneg, _⟩ | ⟨_, habove, _⟩ | ⟨hzero, _⟩ | ⟨_, _, h⟩ := execRev_cases n az s
  · omega
  · simp [hx] at habove
  · omega
  · exact h

theorem exec_rod_of_accepted {n : Nat} (hn : 1 ≤ n) {s : State} (hx : exceeds s.params n = false) :
    exec (.rod n) s = .next (sample (.rod n) n .odd rodZeroDisallowed s) := by
  obtain ⟨hlow, _⟩ | ⟨_, habove, _⟩ | ⟨_, _, h⟩ := execRod_cases n s
  · omega
  · simp [hx] at habove
  · exact h

/-- The value that the bytes `d` are made into before the correction (41_sampler R134). -/
def drawnValue (n d : Nat) : Nat := forceLength n (assembleRaw (dataBytes (drawCount n) d))

theorem drawnValue_eq (n d : Nat) : drawnValue n d = forceLength n (d % 2 ^ (8 * drawCount n)) := by
  rw [drawnValue, assembleRaw_dataBytes]

theorem sample_of_bytes {s : State} {d : Nat} {rest : List EntropyAnswer} (hent : s.ent = .bytes d :: rest) (i : Instr)
    (n : Nat) (want : Parity) (zd : Bool) :
    sample i n want zd s =
      respond .data (correct want zd (drawnValue n d)) 0 { sendRequest i (drawCount n) s with ent := rest } := by
  simp [sample, hent, drawnValue]

/-- With no command in progress an answered draw sends its request and answers, and changes nothing else. -/
theorem sample_of_bytes_fresh {s : State} {d : Nat} {rest : List EntropyAnswer} (hent : s.ent = .bytes d :: rest)
    (hw : s.waiting = none) (i : Instr) (n : Nat) (want : Parity) (zd : Bool) :
    sample i n want zd s =
      { s with ent := rest, req := s.req ++ [drawCount n], rsp := s.rsp ++ [⟨.data, correct want zd (drawnValue n d), 0⟩] } := by
  rw [sample_of_bytes hent, sendRequest_fresh _ _ _ hw,
    respond_of_not_waiting _ _ _ (s := { s with ent := rest, req := s.req ++ [drawCount n] }) hw]

/-- The bytes of a data field, each with the weight of its place (20_memory R57, 30_encoding R83). -/
theorem assembleRaw_dataBytes_eq_sum (k d : Nat) :
    assembleRaw (dataBytes k d) = ((List.range k).map fun j => d / 2 ^ (8 * j) % 2 ^ 8 * 2 ^ (8 * j)).sum := by
  have hlength : (dataBytes k d).length = k := by simp [dataBytes]
  rw [assembleRaw_eq_sum, hlength]
  refine congrArg List.sum (List.map_congr_left fun j hj => ?_)
  simp [dataBytes, dataByte, List.mem_range.1 hj, Nat.shiftRight_eq_div_pow]

theorem drawnValue_eq_sum (n d : Nat) :
    drawnValue n d = (((List.range (drawCount n)).map fun j => d / 2 ^ (8 * j) % 2 ^ 8 * 2 ^ (8 * j)).sum |||
      2 ^ (8 * drawCount n - 1)) / 2 ^ (8 * drawCount n - n) := by
  rw [drawnValue, forceLength, assembleRaw_dataBytes_eq_sum, Nat.shiftRight_eq_div_pow]

theorem correct_of_par {want : Parity} {v0 : Nat} (h : par v0 = want) (zd : Bool) : correct want zd v0 = v0 := by
  simp [correct, mismatch, h]

theorem correct_of_mismatch {want : Parity} {v0 : Nat} (h : par v0 ≠ want) (zd : Bool) :
    correct want zd v0 = if clb v0 = 0 ∧ zd = true then fallback want else clb v0 := by
  simp [correct, mismatch, h]

/-- Zero is disallowed when the flag and `STEP4_AZ_NATURAL` differ (41_sampler R137). -/
theorem revZeroDisallowed_iff (p : Params) (az : Bool) : revZeroDisallowed p az = true ↔ az ≠ p.step4AzNatural := by
  unfold revZeroDisallowed
  cases p.step4AzNatural <;> simp

theorem correct_even_eq (zd : Bool) (v0 : Nat) : correct .even zd v0 =
    if popcount v0 % 2 = 0 then v0 else if clb v0 = 0 ∧ zd = true then 3 else clb v0 := by
  by_cases h : par v0 = .even
  · rw [correct_of_par h, if_pos ((par_even_iff v0).1 h)]
  · rw [correct_of_mismatch h, if_neg ((par_even_iff v0).not.1 h)]
    rfl

theorem correct_odd_eq (v0 : Nat) : correct .odd rodZeroDisallowed v0 =
    if popcount v0 % 2 = 1 then v0 else if clb v0 = 0 then 1 else clb v0 := by
  by_cases h : par v0 = .odd
  · rw [correct_of_par h, if_pos ((par_odd_iff v0).1 h)]
  · rw [correct_of_mismatch h, if_neg ((par_odd_iff v0).not.1 h)]
    simp [rodZeroDisallowed, fallback]

/-- Settles O47, with the correction to even parity written out. -/
theorem revAnswersTheCorrectedDraw : Obligations.RevAnswersTheCorrectedDraw := by
  intro n d az s rest hn hx hw hent count raw v0 c v1
  have hv0 : drawnValue n d = v0 := drawnValue_eq_sum n d
  have hv1 : correct .even (revZeroDisallowed s.params az) v0 = v1 := by
    simp only [correct_even_eq, revZeroDisallowed_iff]
    rfl
  rw [exec_rev_of_accepted hn hx, sample_of_bytes_fresh hent hw, hv0, hv1]
  rfl

/-- Settles O48, with the correction to odd parity written out. -/
theorem rodAnswersTheCorrectedDraw : Obligations.RodAnswersTheCorrectedDraw := by
  intro n d s rest hn hx hw hent count raw v0 c v1
  have hv0 : drawnValue n d = v0 := drawnValue_eq_sum n d
  rw [exec_rod_of_accepted hn hx, sample_of_bytes_fresh hent hw, hv0, correct_odd_eq]
  rfl

/-! ## When a draw is made, and how it waits -/

/-- The accepted Sampler commands with `n >= 1`, those that draw (41_sampler R132). -/
def IsDraw (p : Params) (n : Nat) (i : Instr) : Prop :=
  1 ≤ n ∧ exceeds p n = false ∧ (i = .rod n ∨ ∃ az, i = .rev n az)

/-- A command that draws is the same draw in every state of the instance. -/
theorem exec_of_isDraw {p : Params} {n : Nat} {i : Instr} (h : IsDraw p n i) :
    ∃ want zd, ∀ s : State, s.params = p → exec i s = .next (sample i n want zd s) := by
  obtain ⟨hn, hx, rfl | ⟨az, rfl⟩⟩ := h
  · exact ⟨_, _, fun s hs => exec_rod_of_accepted hn (hs ▸ hx)⟩
  · exact ⟨_, revZeroDisallowed p az, fun s hs => hs ▸ exec_rev_of_accepted hn (hs ▸ hx) az⟩

/-- A command draws, or answers with the entropy channel as it was. -/
theorem isDraw_or_respond (i : Instr) (s : State) :
    (∃ n, IsDraw s.params n i) ∨ ∃ st pat e, exec i s = .next (respond st pat 0 { s with enum := e }) := by
  obtain h | ⟨n, hn, hx, ⟨az, hi, _⟩ | ⟨hi, _⟩⟩ := exec_cases i s
  · exact .inr h
  · exact .inl ⟨n, hn, hx, .inr ⟨az, hi⟩⟩
  · exact .inl ⟨n, hn, hx, .inl hi⟩

theorem sample_req_ent {s : State} (hw : s.waiting = none) (i : Instr) (n : Nat) (want : Parity) (zd : Bool) :
    (sample i n want zd s).req = s.req ++ [drawCount n] ∧ (sample i n want zd s).ent = s.ent.tail := by
  obtain ⟨hent, h⟩ | ⟨_, _, hent, h⟩ | ⟨_, _, hent, h⟩ := sample_cases i n want zd s <;>
    rw [h, sendRequest_fresh _ _ _ hw, hent]
  all_goals exact ⟨rfl, rfl⟩

/-- Settles O50: the commands that draw, and those that answer at once. -/
theorem drawsAreMadeOnlyByAcceptedSamplerCommands : Obligations.DrawsAreMadeOnlyByAcceptedSamplerCommands := by
  intro i s t hw hexec
  refine ⟨fun ⟨n, hdraw⟩ => ?_, fun hno => ?_⟩
  · obtain ⟨want, zd, h⟩ := exec_of_isDraw hdraw
    have harg : i.arg.toNat = n := by obtain ⟨_, _, rfl | ⟨az, rfl⟩⟩ := hdraw <;> simp [Instr.arg]
    cases (h s rfl).symm.trans hexec
    rw [harg]
    exact sample_req_ent hw i n want zd
  · obtain hdraw | ⟨st, pat, e, h⟩ := isDraw_or_respond i s
    · exact absurd hdraw hno
    · cases h.symm.trans hexec
      exact ⟨rfl, rfl⟩

theorem sample_of_no_answer {s : State} (hent : s.ent = []) (i : Instr) (n : Nat) (want : Parity) (zd : Bool) :
    sample i n want zd s = { sendRequest i (drawCount n) s with waiting := some i } := by
  simp [sample, hent]

/-- Settles O51: the request is sent once, and going on without an answer sends nothing. -/
theorem unansweredDrawWaits : Obligations.UnansweredDrawWaits := by
  intro n az s hn hx hw hent i hi
  have hdraw : IsDraw s.params n i := by
    obtain rfl | rfl : i = .rev n az ∨ i = .rod n := by simpa using hi
    · exact ⟨hn, hx, .inr ⟨az, rfl⟩⟩
    · exact ⟨hn, hx, .inl rfl⟩
  obtain ⟨want, zd, h⟩ := exec_of_isDraw hdraw
  refine ⟨?_, ?_⟩
  · rw [h s rfl, sample_of_no_answer hent, sendRequest_fresh _ _ _ hw]
    rfl
  · intro u hu hh
    have hwait : u.waiting = some i := by rw [hu]
    have hnone : u.ent = [] := by rw [hu, hent]
    rw [step_of_waiting hwait hh, h u (by rw [hu]), sample_of_no_answer hnone, sendRequest_outstanding _ _ _ hwait, ← hwait]

/-- An answer ends the draw, so it makes no difference whether the request was sent before or now. -/
theorem sample_resumed {s : State} (hw : s.waiting = none) (i : Instr) (n : Nat) (want : Parity) (zd : Bool)
    (a : EntropyAnswer) (rest : List EntropyAnswer) :
    sample i n want zd { s with req := s.req ++ [drawCount n], waiting := some i, ent := a :: rest } =
      sample i n want zd { s with ent := a :: rest } := by
  have hfresh := sendRequest_fresh i (drawCount n) { s with ent := a :: rest } hw
  cases a with
  | fail e => rw [sample_of_fail rfl, sample_of_fail rfl, sendRequest_outstanding _ _ _ rfl, hfresh]; rfl
  | bytes d => rw [sample_of_bytes rfl, sample_of_bytes rfl, sendRequest_outstanding _ _ _ rfl, hfresh]; rfl

/-- Settles O52: only a draw without an answer stays in progress. -/
theorem lateAnswerGivesTheSameState : Obligations.LateAnswerGivesTheSameState := by
  intro i s t a rest hw hent hexec hwait
  obtain ⟨n, hdraw⟩ | ⟨st, pat, e, h⟩ := isDraw_or_respond i s
  · obtain ⟨want, zd, h⟩ := exec_of_isDraw hdraw
    have ht : t = { s with req := s.req ++ [drawCount n], waiting := some i } := by
      rw [h s rfl, sample_of_no_answer hent, sendRequest_fresh _ _ _ hw] at hexec
      exact (Host.Outcome.next.inj hexec).symm
    rw [h { t with ent := a :: rest } (by rw [ht]), h { s with ent := a :: rest } rfl, ht]
    exact congrArg _ (sample_resumed hw i n want zd a rest)
  · cases h.symm.trans hexec
    cases hwait

/-! ## The zero test -/

/-- A value of exactly `n` bits is its top bit alone, and clearing the lowest set bit leaves zero, or it keeps its top bit. -/
theorem clb_top_cases {n v0 : Nat} (hn : 1 ≤ n) (hlow : 2 ^ (n - 1) ≤ v0) (hhigh : v0 < 2 ^ n) :
    (v0 = 2 ^ (n - 1) ∧ clb v0 = 0) ∨ (v0 ≠ 2 ^ (n - 1) ∧ 2 ^ (n - 1) ≤ clb v0 ∧ clb v0 < 2 ^ n) := by
  obtain ⟨k, rfl⟩ := Nat.exists_eq_add_of_le' hn
  rw [Nat.add_sub_cancel] at *
  have hpos := Nat.two_pow_pos k
  have htop : v0.testBit k = true := Nat.testBit_of_two_pow_le_and_two_pow_add_one_gt hlow hhigh
  obtain ⟨t, ht, hbelow⟩ := exists_lowest (hpos.trans_le hlow)
  have hsplit := lowest_split ht hbelow
  obtain hlt | rfl | hgt := Nat.lt_trichotomy t k
  · have hclear := clb_eq_sub ht hbelow
    have hkept : 2 ^ k ≤ clb v0 := Nat.ge_two_pow_of_testBit ((clb_testBit_above ht hbelow hlt).trans htop)
    have hweight := Nat.two_pow_pos t
    exact .inr ⟨by omega, hkept, by omega⟩
  · rw [Nat.div_eq_of_lt hhigh, Nat.mul_zero, Nat.zero_add] at hsplit
    exact .inl ⟨hsplit, by rw [clb_eq_sub ht hbelow, ← hsplit, Nat.sub_self]⟩
  · simp [hbelow k hgt] at htop

theorem par_two_pow (k : Nat) : par (2 ^ k) = .odd := by
  rw [par_odd_iff, popcount_two_pow]

/-- Settles O53, from the two cases of the lowest set bit. -/
theorem zeroTestFiresOnlyOnTheForcedBit : Obligations.ZeroTestFiresOnlyOnTheForcedBit := by
  intro n v0 hn hlow hhigh
  have hpos := Nat.two_pow_pos (n - 1)
  obtain ⟨hforced, hzero⟩ | ⟨hforced, hkept⟩ := clb_top_cases hn hlow hhigh
  · refine ⟨iff_of_true hzero hforced, par_two_pow _, fun hmis => ?_, fun hne => absurd hforced hne⟩
    simp [mismatch, hforced, par_two_pow] at hmis
  · exact ⟨iff_of_false (by omega) hforced, par_two_pow _, fun _ => by omega, fun _ => hkept⟩

/-! ## The correction -/

/-- Everything the correction can do to a value of exactly `n` bits (41_sampler R135, R136, R143). -/
theorem correct_cases {n v0 : Nat} (hn : 1 ≤ n) (hlow : 2 ^ (n - 1) ≤ v0) (hhigh : v0 < 2 ^ n) (want : Parity) (zd : Bool) :
    (par v0 = want ∧ correct want zd v0 = v0) ∨
    (par v0 = want.flip ∧ v0 ≠ 2 ^ (n - 1) ∧ 2 ^ (n - 1) ≤ clb v0 ∧ clb v0 < 2 ^ n ∧ correct want zd v0 = clb v0) ∨
    (want = .even ∧ v0 = 2 ^ (n - 1) ∧ correct want zd v0 = if zd then 3 else 0) := by
  have hpos := Nat.two_pow_pos (n - 1)
  by_cases hpar : par v0 = want
  · exact .inl ⟨hpar, correct_of_par hpar zd⟩
  have hflip : par v0 = want.flip := by
    cases hv : par v0 <;> cases want <;> simp_all [Parity.flip]
  obtain ⟨hforced, hzero⟩ | ⟨hforced, hkept, hbound⟩ := clb_top_cases hn hlow hhigh
  · have heven : want = .even := by
      rw [hforced, par_two_pow] at hflip
      cases want with
      | even => rfl
      | odd => cases hflip
    refine .inr (.inr ⟨heven, hforced, ?_⟩)
    rw [correct_of_mismatch hpar, hzero, heven]
    simp [fallback]
  · refine .inr (.inl ⟨hflip, hforced, hkept, hbound, ?_⟩)
    rw [correct_of_mismatch hpar, if_neg fun h => by omega]

theorem drawnValue_bounds {n : Nat} (hn : 1 ≤ n) (d : Nat) : 2 ^ (n - 1) ≤ drawnValue n d ∧ drawnValue n d < 2 ^ n := by
  rw [drawnValue_eq]
  exact ⟨Nat.ge_two_pow_of_testBit (forceLength_testBit_top hn), forceLength_lt hn (Nat.mod_lt _ (Nat.two_pow_pos _))⟩

/-- A value of exactly `n` bits, as the postconditions of 41_sampler R140 say it. -/
theorem exact_length {n v : Nat} (hn : 1 ≤ n) (hlow : 2 ^ (n - 1) ≤ v) (hhigh : v < 2 ^ n) :
    2 ^ (n - 1) ≤ v ∧ v ≤ 2 ^ n - 1 ∧ len v = n := by
  obtain ⟨k, rfl⟩ := Nat.exists_eq_add_of_le' hn
  exact ⟨hlow, by omega, len_of_top_bit hlow hhigh⟩

/-- A corrected value that keeps its length has the parity wanted. -/
theorem par_clb_of_flip {v : Nat} {want : Parity} (hv : 1 ≤ v) (hflip : par v = want.flip) : par (clb v) = want := by
  rw [par_clb hv, hflip, Parity.flip_flip]

theorem sample_of_bytes_rsp {s : State} {d : Nat} {rest : List EntropyAnswer} (hent : s.ent = .bytes d :: rest) (i : Instr)
    (n : Nat) (want : Parity) (zd : Bool) :
    (sample i n want zd s).rsp = s.rsp ++ [⟨.data, correct want zd (drawnValue n d), 0⟩] := by
  rw [sample_of_bytes hent, respond_rsp]
  exact congrArg (· ++ _) (sendRequest_rsp ..)

/-- Settles O54: with odd wanted only the first two cases of the correction are left. -/
theorem rodPostcondition : Obligations.RodPostcondition := by
  intro n d s rest hn hx hent
  obtain ⟨hlow, hhigh⟩ := drawnValue_bounds hn d
  have hpos := Nat.two_pow_pos (n - 1)
  refine ⟨_, _, exec_rod_of_accepted hn hx, sample_of_bytes_rsp hent .., sample_enum .., ?_⟩
  obtain ⟨hpar, h⟩ | ⟨hflip, _, hkept, hbound, h⟩ | ⟨heven, _⟩ := correct_cases hn hlow hhigh .odd rodZeroDisallowed
  · obtain ⟨h1, h2, h3⟩ := exact_length hn hlow hhigh
    rw [h]
    exact ⟨h1, h2, h3, hpar⟩
  · obtain ⟨h1, h2, h3⟩ := exact_length hn hkept hbound
    rw [h]
    exact ⟨h1, h2, h3, par_clb_of_flip (by omega) hflip⟩
  · cases heven

/-- Settles O55, by the three cases of the correction: the forced value `2^(n-1)` is odd, so it is the third. -/
theorem revPostcondition : Obligations.RevPostcondition := by
  intro n d az s rest hn hx hent
  obtain ⟨hlow, hhigh⟩ := drawnValue_bounds hn d
  have hpos := Nat.two_pow_pos (n - 1)
  have hvalue : forceLength n (d % 2 ^ (8 * ((n + 7) / 8))) = drawnValue n d := (drawnValue_eq n d).symm
  refine ⟨_, _, exec_rev_of_accepted hn hx az, sample_of_bytes_rsp hent .., sample_enum .., ?_⟩
  rw [hvalue]
  obtain ⟨hpar, h⟩ | ⟨hflip, hforced, hkept, hbound, h⟩ | ⟨_, hforced, h⟩ :=
    correct_cases hn hlow hhigh .even (revZeroDisallowed s.params az) <;> rw [h]
  · refine ⟨hpar, fun _ => exact_length hn hlow hhigh, fun hforced => ?_⟩
    rw [hforced, par_two_pow] at hpar
    cases hpar
  · exact ⟨par_clb_of_flip (by omega) hflip, fun _ => exact_length hn hkept hbound, fun h => absurd h hforced⟩
  · refine ⟨by cases revZeroDisallowed s.params az <;> decide, fun h => absurd hforced h, fun _ => ?_⟩
    simp only [revZeroDisallowed_iff, ne_eq, ite_not]

/-- A value of the wanted parity, with one more bit set below its lowest, is corrected to it. -/
theorem correct_add_two_pow {r t tz : Nat} (htz : r.testBit tz = true) (hbelow : ∀ i < tz, r.testBit i = false)
    (ht : t < tz) {want : Parity} (hpar : par r = want) (zd : Bool) : correct want zd (r + 2 ^ t) = r := by
  have hpos : 2 ^ tz ≤ r := Nat.ge_two_pow_of_testBit htz
  have hweight := Nat.two_pow_pos tz
  obtain ⟨q, rfl⟩ : 2 ^ (t + 1) ∣ r := by
    rw [lowest_split htz hbelow]
    exact dvd_add ((pow_dvd_pow 2 (by omega)).mul_right _) (pow_dvd_pow 2 ht)
  have hflip : par (2 ^ (t + 1) * q + 2 ^ t) = want.flip := by
    rw [← hpar]
    exact par_succ (by rw [popcount_split, popcount_two_pow_mul])
  have hmis : par (2 ^ (t + 1) * q + 2 ^ t) ≠ want := by
    rw [hflip]
    cases want <;> decide
  rw [correct_of_mismatch hmis, clb_split, if_neg fun h => by omega]

/-- What clears to `r` is `r` with a bit set below its lowest. -/
theorem eq_add_two_pow_of_clb {v r tz : Nat} (hv : 1 ≤ v) (h : clb v = r) (htz : r.testBit tz = true) :
    ∃ t < tz, v = r + 2 ^ t := by
  obtain ⟨t, ht, hbelow⟩ := exists_lowest hv
  have hsplit := lowest_split ht hbelow
  have hr : r = 2 ^ (t + 1) * (v / 2 ^ (t + 1)) := by rw [← h, hsplit, clb_split, ← hsplit]
  refine ⟨t, ?_, by rw [hr]; exact hsplit⟩
  by_contra hle
  rw [hr, Nat.testBit_two_pow_mul] at htz
  simp at htz
  omega

/-- Of the values of exactly `n` bits the even fallback 3 has two. -/
theorem eq_two_of_three {n : Nat} (hlow : 2 ^ (n - 1) ≤ 3) (hhigh : 3 < 2 ^ n) : n = 2 := by
  have hle : n - 1 < 2 := (Nat.pow_lt_pow_iff_right (a := 2) (by omega)).1 (by omega)
  have hge : 1 < n := (Nat.pow_lt_pow_iff_right (a := 2) (by omega)).1 (by omega)
  omega

/-- Settles O56: backwards by the cases of the correction, forwards by setting a bit below the lowest. -/
theorem correctionPreimages : Obligations.CorrectionPreimages := by
  intro n r tz v0 want zd hn hlow hhigh hpar htwo htz hbelow hlow0 hhigh0
  have hpos := Nat.two_pow_pos (n - 1)
  constructor
  · intro hcorrect
    obtain ⟨_, h⟩ | ⟨_, _, _, _, h⟩ | ⟨heven, _, h⟩ := correct_cases hn hlow0 hhigh0 want zd
    · exact .inl (h.symm.trans hcorrect)
    · exact .inr (eq_add_two_pow_of_clb (by omega) (h.symm.trans hcorrect) htz)
    · rw [hcorrect] at h
      cases zd with
      | false => exact absurd h (by simp; omega)
      | true =>
        obtain rfl : r = 3 := h
        exact absurd (heven.symm.trans (htwo (eq_two_of_three hlow hhigh))) (by decide)
  · rintro (rfl | ⟨t, ht, rfl⟩)
    · exact correct_of_par hpar zd
    · exact correct_add_two_pow htz hbelow ht hpar zd

end Sys2Proof.Machine

/-!
PROOFS. The invariant (10_state R29, 30_encoding R80, R82, 20_memory R60, `State.Inv`): it holds at reset, every step keeps it,
and what it speaks of fits the widths of the spec. Each of its parts is kept by its own lemma: the record `S`
(`exec_enum_wf`), the command in progress (`exec_waitingWf`), the responses, by what each command can answer
(`responseWf_of_canAnswer`), and the requests (`requestWf_of_isDraw`).
-/

namespace Sys2Proof.Machine

/-! ## Reset -/

theorem Enumerator.idle_wf (p : Params) : Enumerator.idle.wf p := by
  constructor <;> simp

theorem State.resetWith_inv {p : Params} (hwf : p.wf = true) : (State.resetWith p).Inv :=
  ⟨hwf, Enumerator.idle_wf p, by simp, by simp, by simp⟩

/-- Settles O57: the registers are cleared and nothing is on the channels. -/
theorem resetMeetsTheInvariant : Obligations.ResetMeetsTheInvariant :=
  ⟨fun _ => State.resetWith_inv, State.resetWith_inv (by decide)⟩

/-! ## The record S -/

theorem Enumerator.start_wf {p : Params} {w : Nat} (hx : exceeds p w = false) (q : Parity) :
    (Enumerator.start w q).wf p := by
  obtain ⟨_, _, h⟩ | ⟨hne, h⟩ := Enumerator.start_cases w q <;> rw [h]
  · exact Enumerator.exhausted_wf p
  · exact Enumerator.first_wf hx hne

/-- A command leaves a good position a good one. -/
theorem exec_enum_wf {i : Instr} {s t : State} (hwf : s.enum.wf s.params) (hexec : exec i s = .next t) :
    t.enum.wf s.params := by
  obtain h | ⟨_, h⟩ | ⟨_, hactive, h⟩ | ⟨w, p, rfl, h⟩ := exec_enum_cases hexec
  · rwa [h]
  · exact h ▸ Enumerator.idle_wf _
  · exact h ▸ Enumerator.advance_wf hwf hactive
  · cases hx : exceeds s.params w with
    | false => exact h ▸ Enumerator.start_wf hx p
    | true =>
      obtain rfl : startSequence w p s = t := by simpa using hexec
      rwa [startSequence_enum_of_refused (.inr hx) p]

/-! ## The requests and the command in progress -/

theorem isDraw_unique {p : Params} {n k : Nat} {i : Instr} (hn : IsDraw p n i) (hk : IsDraw p k i) : n = k := by
  obtain ⟨_, _, rfl | ⟨_, rfl⟩⟩ := hn <;> obtain ⟨_, _, h | ⟨_, h⟩⟩ := hk <;> cases h <;> rfl

theorem waitingWf_iff (p : Params) (req : List Nat) (i : Instr) :
    WaitingWf p req i ↔ ∃ n, IsDraw p n i ∧ req.getLast? = some (drawCount n) := by
  simp only [WaitingWf, IsDraw, and_assoc]

/-- The request of the command in progress is the last one sent, whether it is sent now or was before. -/
theorem getLast?_sendRequest {s : State} {i : Instr} {n : Nat} (hdraw : IsDraw s.params n i)
    (hwait : s.waiting = some i → WaitingWf s.params s.req i) :
    (sendRequest i (drawCount n) s).req.getLast? = some (drawCount n) := by
  by_cases hout : s.waiting = some i
  · obtain ⟨k, hk, hlast⟩ := (waitingWf_iff ..).1 (hwait hout)
    rw [sendRequest_outstanding _ _ _ hout, hlast, isDraw_unique hk hdraw]
  · simp [sendRequest, hout]

theorem exec_waitingWf {i j : Instr} {s t : State} (hwait : ∀ j, s.waiting = some j → WaitingWf s.params s.req j)
    (hexec : exec i s = .next t) (hj : t.waiting = some j) : WaitingWf s.params t.req j := by
  obtain ⟨n, hdraw⟩ | ⟨st, pat, e, h⟩ := isDraw_or_respond i s
  · obtain ⟨want, zd, h⟩ := exec_of_isDraw hdraw
    cases (h s rfl).symm.trans hexec
    obtain ⟨_, h⟩ | ⟨_, _, _, h⟩ | ⟨_, _, _, h⟩ := sample_cases i n want zd s <;> rw [h] at hj ⊢
    · cases hj
      exact (waitingWf_iff ..).2 ⟨n, hdraw, getLast?_sendRequest hdraw (hwait i)⟩
    · cases hj
    · cases hj
  · cases h.symm.trans hexec
    cases hj

theorem sample_req (i : Instr) (n : Nat) (want : Parity) (zd : Bool) (s : State) :
    (sample i n want zd s).req = (sendRequest i (drawCount n) s).req := by
  obtain ⟨_, h⟩ | ⟨_, _, _, h⟩ | ⟨_, _, _, h⟩ := sample_cases i n want zd s <;> rw [h] <;> rfl

/-- An accepted draw asks for as many bytes as a request can (20_memory R60). -/
theorem requestWf_of_isDraw {p : Params} {n : Nat} {i : Instr} (h : IsDraw p n i) : RequestWf p (drawCount n) := by
  obtain ⟨hn, hx, _⟩ := h
  unfold drawCount
  refine ⟨by omega, fun k hk => ?_⟩
  obtain ⟨m, hmax, rfl⟩ := Option.map_eq_some_iff.1 hk
  have hle := not_exceeds_bounded hmax hx
  omega

theorem exec_requestWf {i : Instr} {s t : State} (hreq : ∀ k ∈ s.req, RequestWf s.params k)
    (hexec : exec i s = .next t) : ∀ k ∈ t.req, RequestWf s.params k := by
  obtain ⟨n, hdraw⟩ | ⟨st, pat, e, h⟩ := isDraw_or_respond i s
  · obtain ⟨want, zd, h⟩ := exec_of_isDraw hdraw
    cases (h s rfl).symm.trans hexec
    rw [sample_req, sendRequest]
    by_cases hout : s.waiting = some i
    · rwa [if_pos hout]
    · rw [if_neg hout, List.forall_mem_append, List.forall_mem_singleton]
      exact ⟨hreq, requestWf_of_isDraw hdraw⟩
  · cases h.symm.trans hexec
    exact hreq

/-! ## The responses -/

/-- A response without a pattern and without a code. -/
theorem responseWf_plain (p : Params) (st : Status) : ResponseWf p ⟨st, 0, 0⟩ :=
  ⟨fun m _ => Nat.two_pow_pos m, Nat.two_pow_pos _, fun _ => rfl, fun _ => rfl⟩

theorem responseWf_data {p : Params} {v : Nat} (h : ∀ m, p.wMax = some m → v < 2 ^ m) : ResponseWf p ⟨.data, v, 0⟩ :=
  ⟨h, Nat.two_pow_pos _, fun hne => absurd rfl hne, fun _ => rfl⟩

theorem responseWf_entropyFailure (p : Params) (e : Nat) : ResponseWf p ⟨.errEntropy, 0, e % 2 ^ p.ecw⟩ :=
  ⟨fun m _ => Nat.two_pow_pos m, Nat.mod_lt _ (Nat.two_pow_pos _), fun _ => rfl, fun hne => absurd rfl hne⟩

theorem responseWf_of_refusal (p : Params) {r : Response} (h : r ∈ argumentRefusals) : ResponseWf p r := by
  obtain rfl | rfl : r = ⟨.errInvalidArgument, 0, 0⟩ ∨ r = ⟨.errRange, 0, 0⟩ := by simpa [argumentRefusals] using h
  · exact responseWf_plain ..
  · exact responseWf_plain ..

/-- The pattern 3 fits every instance: `W_MAX` is at least 2. -/
theorem three_lt_of_wf {p : Params} (hwf : p.wf = true) {m : Nat} (hmax : p.wMax = some m) : 3 < 2 ^ m := by
  have htwo : 2 ≤ m := by
    simp only [Params.wf, hmax, Bool.and_eq_true, decide_eq_true_iff] at hwf
    omega
  calc 3 < 2 ^ 2 := by decide
    _ ≤ 2 ^ m := Nat.pow_le_pow_right (by omega) htwo

/-- The corrected value of an accepted draw fits the pattern field. -/
theorem correct_drawnValue_lt {p : Params} (hwf : p.wf = true) {n m : Nat} (hn : 1 ≤ n) (hx : exceeds p n = false)
    (hmax : p.wMax = some m) (want : Parity) (zd : Bool) (d : Nat) : correct want zd (drawnValue n d) < 2 ^ m := by
  obtain ⟨hlow, hhigh⟩ := drawnValue_bounds hn d
  have hwidth : 2 ^ n ≤ 2 ^ m := Nat.pow_le_pow_right (by omega) (not_exceeds_bounded hmax hx)
  have hthree := three_lt_of_wf hwf hmax
  obtain ⟨_, h⟩ | ⟨_, _, _, hbound, h⟩ | ⟨_, _, h⟩ := correct_cases hn hlow hhigh want zd <;> rw [h]
  · omega
  · omega
  · cases zd
    · exact Nat.two_pow_pos m
    · exact hthree

theorem responseWf_of_drawAnswers {s : State} (hwf : s.params.wf = true) {r : Response} (h : DrawAnswers s r) :
    ResponseWf s.params r := by
  obtain ⟨n, want, zd, hn, hx, hanswer⟩ := h
  match s.ent.head?, hanswer with
  | none, hanswer => simp [drawResponses] at hanswer
  | some (.fail e), hanswer =>
    obtain rfl := List.singleton_inj.1 hanswer
    exact responseWf_entropyFailure ..
  | some (.bytes d), hanswer =>
    obtain rfl := List.singleton_inj.1 hanswer
    exact responseWf_data fun m hmax => correct_drawnValue_lt hwf hn hx hmax want zd d

/-- The current element of a good position fits the pattern field. -/
theorem Enumerator.cur_lt {p : Params} {e : Enumerator} (hwf : e.wf p) (hactive : e.st = .active) {m : Nat}
    (hmax : p.wMax = some m) : e.cur < 2 ^ m := by
  obtain ⟨hlt, _⟩ := currentElementRangeAndParity p e hwf hactive
  exact hlt.trans_le (Nat.pow_le_pow_right (by omega) (not_exceeds_bounded hmax (hwf.width hactive)))

/-- In a good state every response that a command can give fits the response word. -/
theorem responseWf_of_canAnswer {i : Instr} {s : State} {r : Response} (hs : s.Inv) (h : CanAnswer s r i) :
    ResponseWf s.params r := by
  cases i with
  | aev w | aod w =>
    obtain rfl | h := h
    · exact responseWf_plain ..
    · exact responseWf_of_refusal _ h
  | rev n az =>
    obtain rfl | h | h := h
    · refine responseWf_data fun m hmax => ?_
      have hthree := three_lt_of_wf hs.params hmax
      cases az
      · exact Nat.two_pow_pos m
      · exact hthree
    · exact responseWf_of_refusal _ h
    · exact responseWf_of_drawAnswers hs.params h
  | rod n =>
    obtain h | h := h
    · exact responseWf_of_refusal _ h
    · exact responseWf_of_drawAnswers hs.params h
  | nxt =>
    obtain ⟨hactive, rfl⟩ | rfl | rfl := h
    · exact responseWf_data fun m hmax => Enumerator.cur_lt hs.enum hactive hmax
    · exact responseWf_plain ..
    · exact responseWf_plain ..
  | stp =>
    obtain rfl : r = ⟨.ok, 0, 0⟩ := h
    exact responseWf_plain ..

theorem exec_responseWf {i : Instr} {s t : State} (hs : s.Inv) (hexec : exec i s = .next t) :
    ∀ r ∈ t.rsp, ResponseWf s.params r := by
  obtain ⟨u, hu, ⟨_, r, hr⟩ | ⟨_, hr, _⟩⟩ := oneResponsePerCommand i s <;> cases hu.symm.trans hexec
  · rw [hr, List.forall_mem_append, List.forall_mem_singleton]
    exact ⟨hs.responses, responseWf_of_canAnswer hs (exec_canAnswer hexec hr)⟩
  · rw [hr]
    exact hs.responses

/-! ## The step -/

theorem exec_inv {i : Instr} {s t : State} (hs : s.Inv) (hexec : exec i s = .next t) : t.Inv := by
  obtain ⟨hparams, _⟩ := exec_framed hexec
  refine ⟨hparams ▸ hs.params, hparams ▸ exec_enum_wf hs.enum hexec,
    fun j hj => hparams ▸ exec_waitingWf hs.waiting hexec hj, ?_, ?_⟩
  · rw [hparams]
    exact exec_responseWf hs hexec
  · rw [hparams]
    exact exec_requestWf hs.requests hexec

/-- The invariant does not speak of the host's inputs. -/
theorem State.Inv.withHost {s : State} (hs : s.Inv) (rest : List HostInput) : ({ s with host := rest } : State).Inv :=
  ⟨hs.params, hs.enum, hs.waiting, hs.responses, hs.requests⟩

theorem takeReset_inv {s : State} (hs : s.Inv) : (takeReset s).Inv := by
  obtain ⟨_, h⟩ | ⟨_, _, h⟩ := takeReset_cases s <;> rw [h]
  · exact ⟨hs.params, Enumerator.idle_wf _, hs.waiting, hs.responses, hs.requests⟩
  · exact ⟨hs.params, Enumerator.idle_wf _, fun _ hj => (by cases hj), hs.responses, hs.requests⟩

theorem raise_illegal_inv {s : State} (hs : s.Inv) : (raise .illegal s).Inv := by
  refine ⟨hs.params, hs.enum, fun _ hj => (by cases hj), ?_, hs.requests⟩
  rw [raise_rsp, List.forall_mem_append, List.forall_mem_singleton]
  exact ⟨hs.responses, responseWf_plain ..⟩

/-- Settles O58, by the five things that a step can be. -/
theorem stepKeepsTheInvariant : Obligations.StepKeepsTheInvariant := by
  intro s t hs hstep
  obtain ⟨rest, _, h⟩ | ⟨i, _, _, h⟩ | ⟨_, rest, i, _, _, _, h⟩ | ⟨_, rest, _, _, _, _, h⟩ | ⟨_, _, h⟩ := step_cases s
  · cases h.symm.trans hstep
    exact takeReset_inv (hs.withHost rest)
  · exact exec_inv hs (h.symm.trans hstep)
  · exact exec_inv (hs.withHost rest) (h.symm.trans hstep)
  · cases h.symm.trans hstep
    exact raise_illegal_inv (hs.withHost rest)
  · cases h.symm.trans hstep
    exact hs

/-! ## The widths -/

/-- `ceil(log2(x + 1))` bits hold every number up to `x` (10_state R23, 30_encoding R83). -/
theorem lt_two_pow_ceilLog2 (x : Nat) : x < 2 ^ ceilLog2 (x + 1) := by
  unfold ceilLog2
  by_cases hx : x + 1 ≤ 1
  · rw [if_pos hx]
    omega
  · rw [if_neg hx, Nat.add_sub_cancel]
    exact Nat.lt_log2_self

/-- The width and the phases of a good position stay within the instance. -/
theorem Enumerator.registers_bounded {p : Params} {e : Enumerator} (hwf : e.wf p) {m : Nat} (hmax : p.wMax = some m) :
    e.ew ≤ m ∧ e.ph < 2 ^ (m - 2) := by
  by_cases hactive : e.st = .active
  · have hw := not_exceeds_bounded hmax (hwf.width hactive)
    exact ⟨hw, (Enumerator.ph_lt hwf hactive).trans_le (Nat.pow_le_pow_right (by omega) (by omega))⟩
  · obtain ⟨hew, _, hph, _⟩ := hwf.cleared hactive
    rw [hew, hph]
    exact ⟨Nat.zero_le m, Nat.two_pow_pos _⟩

/-- Settles O59: the registers by the width of the instance, the words by their fields. -/
theorem contentsFitTheirWidths : Obligations.ContentsFitTheirWidths := by
  refine fun s hs => ⟨fun k hk => ?_, fun m hmax => ?_, fun k hk count hcount => ?_, fun k hk r hr => ?_⟩
  · obtain ⟨m, hmax, rfl⟩ := Option.map_eq_some_iff.1 hk
    obtain ⟨hew, _⟩ := Enumerator.registers_bounded hs.enum hmax
    exact hew.trans_lt (lt_two_pow_ceilLog2 m)
  · obtain ⟨_, hph⟩ := Enumerator.registers_bounded hs.enum hmax
    exact hph
  · obtain ⟨limit, hlimit, rfl⟩ := Option.map_eq_some_iff.1 hk
    exact ((hs.requests count hcount).bound limit hlimit).trans_lt (lt_two_pow_ceilLog2 limit)
  · obtain ⟨m, hmax, rfl⟩ := Option.map_eq_some_iff.1 hk
    obtain ⟨w, hword, hlt, _⟩ := responseWordFields s.params m r hmax (hs.responses r hr)
    exact ⟨w, hword, hlt⟩

end Sys2Proof.Machine
